-- ==== Sys2Proof/Word.lean ====
section
/-! DEFINITION. The widths the spec gives its values (spec/10_state.md R32 to R38, spec/30_encoding.md R91). -/

namespace Sys2Proof

/-- An 8-bit value: a general register, a memory byte, the field NN, a key code (R32, R60, R91, R210). -/
abbrev Byte := BitVec 8

/-- A 16-bit value: `I`, `pc`, a stack entry, an instruction word (R35, R36, R38, R90). -/
abbrev Word := BitVec 16

/-- The 12-bit address field NNN (R91). -/
abbrev Addr12 := BitVec 12

/-- A 4-bit field used as an index, a selector or a count: Set, X, Y, N (R91). As X or Y it names the
general register of that number (R94); as a key code it is one of the 16 keys (R46). -/
abbrev Nibble := Fin 16

end Sys2Proof
end

