-- ==== Sys2Proof/Syntax.lean ====
section
/-! DEFINITION. The 34 instructions of spec/opcode_table.json, one constructor a row, in the table's order.
A constructor's fields are the word's operand fields (spec/30_encoding.md R91, R93). The fields that an
instruction ignores (R96) are kept, so that no bit of a word is lost and an error can record the word that
was fetched (spec/60_exceptions.md R252, R253); no meaning reads them for anything else. -/

namespace Sys2Proof

/-- One instruction of the base set (spec/30_encoding.md R97, R102). -/
inductive Instr where
  /-- 00E0 `CLS`; the field X is ignored. -/
  | cls (x : Nibble)
  /-- 00EE `RET`; the field X is ignored. -/
  | ret (x : Nibble)
  /-- 1NNN `JP addr`. -/
  | jp (nnn : Addr12)
  /-- 2NNN `CALL addr`. -/
  | call (nnn : Addr12)
  /-- 3XNN `SE Vx, byte`. -/
  | seImm (x : Nibble) (nn : Byte)
  /-- 4XNN `SNE Vx, byte`. -/
  | sneImm (x : Nibble) (nn : Byte)
  /-- 5XYN `SE Vx, Vy`; the field N is ignored. -/
  | seReg (x y n : Nibble)
  /-- 6XNN `LD Vx, byte`. -/
  | ldImm (x : Nibble) (nn : Byte)
  /-- 7XNN `ADD Vx, byte`. -/
  | addImm (x : Nibble) (nn : Byte)
  /-- 8XY0 `LD Vx, Vy`. -/
  | ldReg (x y : Nibble)
  /-- 8XY1 `OR Vx, Vy`. -/
  | orReg (x y : Nibble)
  /-- 8XY2 `AND Vx, Vy`. -/
  | andReg (x y : Nibble)
  /-- 8XY3 `XOR Vx, Vy`. -/
  | xorReg (x y : Nibble)
  /-- 8XY4 `ADD Vx, Vy`. -/
  | addReg (x y : Nibble)
  /-- 8XY5 `SUB Vx, Vy`. -/
  | sub (x y : Nibble)
  /-- 8XY6 `SHR Vx`; the field Y is ignored. -/
  | shr (x y : Nibble)
  /-- 8XY7 `SUBN Vx, Vy`. -/
  | subn (x y : Nibble)
  /-- 8XYE `SHL Vx`; the field Y is ignored. -/
  | shl (x y : Nibble)
  /-- 9XYN `SNE Vx, Vy`; the field N is ignored. -/
  | sneReg (x y n : Nibble)
  /-- ANNN `LD I, addr`. -/
  | ldI (nnn : Addr12)
  /-- BNNN `JP V0, addr`. -/
  | jpV0 (nnn : Addr12)
  /-- CXNN `RND Vx, byte`. -/
  | rnd (x : Nibble) (nn : Byte)
  /-- DXYN `DRW Vx, Vy, nibble`. -/
  | drw (x y n : Nibble)
  /-- EX9E `SKP Vx`. -/
  | skp (x : Nibble)
  /-- EXA1 `SKNP Vx`. -/
  | sknp (x : Nibble)
  /-- FX07 `LD Vx, DT`. -/
  | ldVxDt (x : Nibble)
  /-- FX0A `LD Vx, K`. -/
  | ldK (x : Nibble)
  /-- FX15 `LD DT, Vx`. -/
  | ldDtVx (x : Nibble)
  /-- FX18 `LD ST, Vx`. -/
  | ldStVx (x : Nibble)
  /-- FX1E `ADD I, Vx`. -/
  | addIVx (x : Nibble)
  /-- FX29 `LD F, Vx`. -/
  | ldFVx (x : Nibble)
  /-- FX33 `LD B, Vx`. -/
  | ldBVx (x : Nibble)
  /-- FX55 `LD [I], Vx`. -/
  | ldMemVx (x : Nibble)
  /-- FX65 `LD Vx, [I]`. -/
  | ldVxMem (x : Nibble)
deriving DecidableEq, Repr

end Sys2Proof
end

