-- ==== Sys2Proof/WellFormed.lean ====
section
/-! DEFINITION. The check on instructions. Every operand's type already has the width of its field, so no
constructor can hold a register number, an immediate, an address or a height that no word encodes
(spec/30_encoding.md R91, R94). What is left to check is R107's rule for assembled words: "every ignored
field (rule R96) written as 0". The machine runs the instructions that fail the check as well (R96); the
statements about decoding and stepping therefore hold for every instruction, checked or not. -/

namespace Sys2Proof

/-- The ignored field of an instruction, where it has one (spec/30_encoding.md R96). -/
def Instr.ignored : Instr → Option Nibble
  | .cls x => some x
  | .ret x => some x
  | .jp _ => none
  | .call _ => none
  | .seImm _ _ => none
  | .sneImm _ _ => none
  | .seReg _ _ n => some n
  | .ldImm _ _ => none
  | .addImm _ _ => none
  | .ldReg _ _ => none
  | .orReg _ _ => none
  | .andReg _ _ => none
  | .xorReg _ _ => none
  | .addReg _ _ => none
  | .sub _ _ => none
  | .shr _ y => some y
  | .subn _ _ => none
  | .shl _ y => some y
  | .sneReg _ _ n => some n
  | .ldI _ => none
  | .jpV0 _ => none
  | .rnd _ _ => none
  | .drw _ _ _ => none
  | .skp _ => none
  | .sknp _ => none
  | .ldVxDt _ => none
  | .ldK _ => none
  | .ldDtVx _ => none
  | .ldStVx _ => none
  | .addIVx _ => none
  | .ldFVx _ => none
  | .ldBVx _ => none
  | .ldMemVx _ => none
  | .ldVxMem _ => none

/-- The instruction is one an assembler emits: its ignored field, if it has one, is 0 (R107). -/
def Instr.wellFormed (i : Instr) : Bool :=
  match i.ignored with
  | some n => n == 0
  | none => true

/-- `Instr.wellFormed` as a proposition. -/
abbrev Instr.WellFormed (i : Instr) : Prop := i.wellFormed = true

end Sys2Proof
end

