-- ==== Sys2Proof/Decode.lean ====
section
/-! DEFINITION. The chip8_decoder and the opcode map (spec/30_encoding.md). `decode` reads bytes, `encode`
writes them, `opcodeTable` is R97's table of match and mask. -/

namespace Sys2Proof

/-! ## The chip8_decoder (R90, R91) -/

/-- Bits `4k+3` to `4k` of the word. -/
def nibbleAt (k : Nat) (w : Word) : Nibble := (w.extractLsb' (4 * k) 4).toFin

/-- Set = w[15:12] (R91). -/
def setOf (w : Word) : Nibble := nibbleAt 3 w

/-- X = w[11:8] (R91). -/
def xOf (w : Word) : Nibble := nibbleAt 2 w

/-- Y = w[7:4] (R91). -/
def yOf (w : Word) : Nibble := nibbleAt 1 w

/-- N = w[3:0] (R91). -/
def nOf (w : Word) : Nibble := nibbleAt 0 w

/-- NN = w[7:0] (R91). -/
def nnOf (w : Word) : Byte := w.extractLsb' 0 8

/-- NNN = w[11:0] (R91). -/
def nnnOf (w : Word) : Addr12 := w.extractLsb' 0 12

/-- The decoder's six outputs (R90). -/
structure Fields where
  set : Nibble
  nnn : Addr12
  nn : Byte
  n : Nibble
  x : Nibble
  y : Nibble
deriving DecidableEq, Repr

/-- The chip8_decoder: pure and total (R90). -/
def fieldsOf (w : Word) : Fields :=
  { set := setOf w, nnn := nnnOf w, nn := nnOf w, n := nOf w, x := xOf w, y := yOf w }

/-! ## Dispatch (R95 to R101) -/

/-- Why bytes are no instruction. Each of the four sub-dispatches names its own failure with the selector
that matched no row (R98 to R101, R103). -/
inductive DecodeError where
  /-- Set 0x0 with NN neither 0xE0 nor 0xEE (R98). -/
  | invalidSet0 (nn : Byte)
  /-- Set 0x8 with N in 0x8 to 0xD or 0xF (R99). -/
  | invalidSet8 (n : Nibble)
  /-- Set 0xE with NN neither 0x9E nor 0xA1 (R100). -/
  | invalidSetE (nn : Byte)
  /-- Set 0xF with NN none of the nine of R101. -/
  | invalidSetF (nn : Byte)
  /-- Fewer than two bytes: no instruction word (R92). Memory never runs out, so no fetch gives this. -/
  | truncated
deriving DecidableEq, Repr

/-- The sub-dispatch of Set 0x0, on NN (R98); X is ignored (R96). -/
def decodeSet0 (f : Fields) : Except DecodeError Instr :=
  if f.nn = 0xE0#8 then .ok (.cls f.x)
  else if f.nn = 0xEE#8 then .ok (.ret f.x)
  else .error (.invalidSet0 f.nn)

/-- The sub-dispatch of Set 0x8, on N (R99). -/
def decodeSet8 (f : Fields) : Except DecodeError Instr :=
  if f.n = 0x0 then .ok (.ldReg f.x f.y)
  else if f.n = 0x1 then .ok (.orReg f.x f.y)
  else if f.n = 0x2 then .ok (.andReg f.x f.y)
  else if f.n = 0x3 then .ok (.xorReg f.x f.y)
  else if f.n = 0x4 then .ok (.addReg f.x f.y)
  else if f.n = 0x5 then .ok (.sub f.x f.y)
  else if f.n = 0x6 then .ok (.shr f.x f.y)
  else if f.n = 0x7 then .ok (.subn f.x f.y)
  else if f.n = 0xE then .ok (.shl f.x f.y)
  else .error (.invalidSet8 f.n)

/-- The sub-dispatch of Set 0xE, on NN (R100). -/
def decodeSetE (f : Fields) : Except DecodeError Instr :=
  if f.nn = 0x9E#8 then .ok (.skp f.x)
  else if f.nn = 0xA1#8 then .ok (.sknp f.x)
  else .error (.invalidSetE f.nn)

/-- The sub-dispatch of Set 0xF, on NN (R101). -/
def decodeSetF (f : Fields) : Except DecodeError Instr :=
  if f.nn = 0x07#8 then .ok (.ldVxDt f.x)
  else if f.nn = 0x0A#8 then .ok (.ldK f.x)
  else if f.nn = 0x15#8 then .ok (.ldDtVx f.x)
  else if f.nn = 0x18#8 then .ok (.ldStVx f.x)
  else if f.nn = 0x1E#8 then .ok (.addIVx f.x)
  else if f.nn = 0x29#8 then .ok (.ldFVx f.x)
  else if f.nn = 0x33#8 then .ok (.ldBVx f.x)
  else if f.nn = 0x55#8 then .ok (.ldMemVx f.x)
  else if f.nn = 0x65#8 then .ok (.ldVxMem f.x)
  else .error (.invalidSetF f.nn)

/-- The first level of dispatch, on Set: all sixteen values have a handler, the last one (0xF) in the final else,
so it never fails itself (R95). -/
def dispatch (f : Fields) : Except DecodeError Instr :=
  if f.set = 0x0 then decodeSet0 f
  else if f.set = 0x1 then .ok (.jp f.nnn)
  else if f.set = 0x2 then .ok (.call f.nnn)
  else if f.set = 0x3 then .ok (.seImm f.x f.nn)
  else if f.set = 0x4 then .ok (.sneImm f.x f.nn)
  else if f.set = 0x5 then .ok (.seReg f.x f.y f.n)
  else if f.set = 0x6 then .ok (.ldImm f.x f.nn)
  else if f.set = 0x7 then .ok (.addImm f.x f.nn)
  else if f.set = 0x8 then decodeSet8 f
  else if f.set = 0x9 then .ok (.sneReg f.x f.y f.n)
  else if f.set = 0xA then .ok (.ldI f.nnn)
  else if f.set = 0xB then .ok (.jpV0 f.nnn)
  else if f.set = 0xC then .ok (.rnd f.x f.nn)
  else if f.set = 0xD then .ok (.drw f.x f.y f.n)
  else if f.set = 0xE then decodeSetE f
  else decodeSetF f

/-- The instruction a word is, or why it is none (R97, R104). -/
def decodeWord (w : Word) : Except DecodeError Instr := dispatch (fieldsOf w)

/-- A word from its two bytes, the byte at the lower address first (spec/20_memory.md R68). -/
def wordOfBytes (hi lo : Byte) : Word := hi ++ lo

/-- The two bytes of a word as memory holds them, lower address first (spec/20_memory.md R68, R69). -/
def bytesOfWord (w : Word) : List Byte := [w.extractLsb' 8 8, w.extractLsb' 0 8]

/-- Reads one instruction off a list of bytes and answers it with the bytes left over. -/
def decode : List Byte → Except DecodeError (Instr × List Byte)
  | hi :: lo :: rest => (decodeWord (wordOfBytes hi lo)).map fun i => (i, rest)
  | _ => .error .truncated

/-! ## The encoder (R93, R97) -/

/-- A 4-bit field as bits. -/
def bits4 (n : Nibble) : BitVec 4 := BitVec.ofFin n

/-- The formats F_XYN and F_XYS: Set, X, Y, N from the top nibble down (R93). -/
def packXYN (set x y n : Nibble) : Word :=
  bits4 set ++ bits4 x ++ bits4 y ++ bits4 n

/-- The format F_XNN, and F_S and F_XS with NN as the selector (R93). -/
def packXNN (set x : Nibble) (nn : Byte) : Word := bits4 set ++ bits4 x ++ nn

/-- The format F_NNN (R93). -/
def packNNN (set : Nibble) (nnn : Addr12) : Word := bits4 set ++ nnn

/-- The word of an instruction (R97). -/
def encodeWord : Instr → Word
  | .cls x => packXNN 0x0 x 0xE0#8
  | .ret x => packXNN 0x0 x 0xEE#8
  | .jp nnn => packNNN 0x1 nnn
  | .call nnn => packNNN 0x2 nnn
  | .seImm x nn => packXNN 0x3 x nn
  | .sneImm x nn => packXNN 0x4 x nn
  | .seReg x y n => packXYN 0x5 x y n
  | .ldImm x nn => packXNN 0x6 x nn
  | .addImm x nn => packXNN 0x7 x nn
  | .ldReg x y => packXYN 0x8 x y 0x0
  | .orReg x y => packXYN 0x8 x y 0x1
  | .andReg x y => packXYN 0x8 x y 0x2
  | .xorReg x y => packXYN 0x8 x y 0x3
  | .addReg x y => packXYN 0x8 x y 0x4
  | .sub x y => packXYN 0x8 x y 0x5
  | .shr x y => packXYN 0x8 x y 0x6
  | .subn x y => packXYN 0x8 x y 0x7
  | .shl x y => packXYN 0x8 x y 0xE
  | .sneReg x y n => packXYN 0x9 x y n
  | .ldI nnn => packNNN 0xA nnn
  | .jpV0 nnn => packNNN 0xB nnn
  | .rnd x nn => packXNN 0xC x nn
  | .drw x y n => packXYN 0xD x y n
  | .skp x => packXNN 0xE x 0x9E#8
  | .sknp x => packXNN 0xE x 0xA1#8
  | .ldVxDt x => packXNN 0xF x 0x07#8
  | .ldK x => packXNN 0xF x 0x0A#8
  | .ldDtVx x => packXNN 0xF x 0x15#8
  | .ldStVx x => packXNN 0xF x 0x18#8
  | .addIVx x => packXNN 0xF x 0x1E#8
  | .ldFVx x => packXNN 0xF x 0x29#8
  | .ldBVx x => packXNN 0xF x 0x33#8
  | .ldMemVx x => packXNN 0xF x 0x55#8
  | .ldVxMem x => packXNN 0xF x 0x65#8

/-- The bytes of an instruction, lower address first. -/
def encode (i : Instr) : List Byte := bytesOfWord (encodeWord i)

/-! ## The opcode map as match and mask (R97) -/

/-- A row of R97's table: a word w selects it when `w & mask == match`. -/
structure Row where
  mnemonic : String
  mtch : Word
  mask : Word
deriving DecidableEq, Repr

/-- The word selects the row (R97). -/
abbrev Row.Selects (row : Row) (w : Word) : Prop := w &&& row.mask = row.mtch

/-- The row of an instruction (R97; the mnemonics are spec/opcode_table.json's). -/
def Instr.row : Instr → Row
  | .cls _ => ⟨"CLS", 0x00E0, 0xF0FF⟩
  | .ret _ => ⟨"RET", 0x00EE, 0xF0FF⟩
  | .jp _ => ⟨"JP", 0x1000, 0xF000⟩
  | .call _ => ⟨"CALL", 0x2000, 0xF000⟩
  | .seImm _ _ => ⟨"SE_IMM", 0x3000, 0xF000⟩
  | .sneImm _ _ => ⟨"SNE_IMM", 0x4000, 0xF000⟩
  | .seReg _ _ _ => ⟨"SE_REG", 0x5000, 0xF000⟩
  | .ldImm _ _ => ⟨"LD_IMM", 0x6000, 0xF000⟩
  | .addImm _ _ => ⟨"ADD_IMM", 0x7000, 0xF000⟩
  | .ldReg _ _ => ⟨"LD_REG", 0x8000, 0xF00F⟩
  | .orReg _ _ => ⟨"OR", 0x8001, 0xF00F⟩
  | .andReg _ _ => ⟨"AND", 0x8002, 0xF00F⟩
  | .xorReg _ _ => ⟨"XOR", 0x8003, 0xF00F⟩
  | .addReg _ _ => ⟨"ADD_REG", 0x8004, 0xF00F⟩
  | .sub _ _ => ⟨"SUB", 0x8005, 0xF00F⟩
  | .shr _ _ => ⟨"SHR", 0x8006, 0xF00F⟩
  | .subn _ _ => ⟨"SUBN", 0x8007, 0xF00F⟩
  | .shl _ _ => ⟨"SHL", 0x800E, 0xF00F⟩
  | .sneReg _ _ _ => ⟨"SNE_REG", 0x9000, 0xF000⟩
  | .ldI _ => ⟨"LD_I", 0xA000, 0xF000⟩
  | .jpV0 _ => ⟨"JP_V0", 0xB000, 0xF000⟩
  | .rnd _ _ => ⟨"RND", 0xC000, 0xF000⟩
  | .drw _ _ _ => ⟨"DRW", 0xD000, 0xF000⟩
  | .skp _ => ⟨"SKP", 0xE09E, 0xF0FF⟩
  | .sknp _ => ⟨"SKNP", 0xE0A1, 0xF0FF⟩
  | .ldVxDt _ => ⟨"LD_VX_DT", 0xF007, 0xF0FF⟩
  | .ldK _ => ⟨"LD_K", 0xF00A, 0xF0FF⟩
  | .ldDtVx _ => ⟨"LD_DT_VX", 0xF015, 0xF0FF⟩
  | .ldStVx _ => ⟨"LD_ST_VX", 0xF018, 0xF0FF⟩
  | .addIVx _ => ⟨"ADD_I_VX", 0xF01E, 0xF0FF⟩
  | .ldFVx _ => ⟨"LD_F_VX", 0xF029, 0xF0FF⟩
  | .ldBVx _ => ⟨"LD_B_VX", 0xF033, 0xF0FF⟩
  | .ldMemVx _ => ⟨"LD_MEM_VX", 0xF055, 0xF0FF⟩
  | .ldVxMem _ => ⟨"LD_VX_MEM", 0xF065, 0xF0FF⟩

/-- The table's 34 rows, in its order: the rows of one instruction of each constructor. -/
def opcodeTable : List Row :=
  let control : List Instr := [.cls 0, .ret 0, .jp 0, .call 0, .seImm 0 0, .sneImm 0 0, .seReg 0 0 0]
  let alu : List Instr := [.ldImm 0 0, .addImm 0 0, .ldReg 0 0, .orReg 0 0, .andReg 0 0, .xorReg 0 0,
    .addReg 0 0, .sub 0 0, .shr 0 0, .subn 0 0, .shl 0 0, .sneReg 0 0 0]
  let wide : List Instr := [.ldI 0, .jpV0 0, .rnd 0 0, .drw 0 0 0, .skp 0, .sknp 0]
  let misc : List Instr := [.ldVxDt 0, .ldK 0, .ldDtVx 0, .ldStVx 0, .addIVx 0, .ldFVx 0, .ldBVx 0,
    .ldMemVx 0, .ldVxMem 0]
  (control ++ alu ++ wide ++ misc).map Instr.row

/-! ## The host's view of a word -/

/-- What the decoder reads from an instruction whose bits are `w`, bit 0 the least significant bit of the
instruction's one word, every bit from `nbits` up being 0. The bytes lie as memory holds them. -/
def decodeTableWord (nbits w : Nat) : Option Instr :=
  match decode (bytesOfWord (BitVec.ofNat 16 (w % 2 ^ nbits))) with
  | .ok (i, _) => some i
  | .error _ => none

end Sys2Proof
end

