-- ==== Sys2Proof/Machine/Grid.lean ====
section
/-! DEFINITION. The 64 x 32 Boolean grids of the display (spec/10_state.md R43, R44) and the pixel update of
DXYN (spec/44_display.md R192, R195). -/

namespace Sys2Proof.Machine

/-- A column, 0 to 63, left to right (R43). -/
abbrev Col := Fin 64

/-- A row, 0 to 31, top to bottom (R43). -/
abbrev ScrRow := Fin 32

/-- FB_W columns of FB_H pixels (spec/00_scope.md R7). -/
abbrev Grid := Vector (Vector Bool 32) 64

namespace Grid

/-- The pixel at column `c` and row `r`: the spec's `g[c][r]`. -/
def px (g : Grid) (c : Col) (r : ScrRow) : Bool := (g[c.val])[r.val]

/-- The grid with that one pixel set to `b`. -/
def setPx (g : Grid) (c : Col) (r : ScrRow) (b : Bool) : Grid := g.set c.val ((g[c.val]).set r.val b)

/-- The grid whose pixel at `c`, `r` is `f c r`. -/
def build (f : Col → ScrRow → Bool) : Grid := Vector.ofFn fun c => Vector.ofFn fun r => f c r

/-- Every pixel off. -/
def blank : Grid := Vector.replicate 64 (Vector.replicate 32 false)

/-- Some pixel is on in both grids. -/
def meets (g h : Grid) : Bool :=
  (List.finRange 64).any fun c => (List.finRange 32).any fun r => g.px c r && h.px c r

end Grid

/-- The pixels DXYN works on, and the collision bit it builds up (spec/44_display.md R192). -/
structure Canvas where
  fb : Grid
  pend : Grid
  redraw : Bool
  hit : Bool
deriving DecidableEq, Repr

namespace Canvas

/-- The flush: every pixel marked in `pend` is turned off in `fb` and unmarked, and `redraw` is set if one of
them was on (spec/44_display.md R193). The collision bit starts at 0. -/
def flush (fb pend : Grid) (redraw : Bool) : Canvas :=
  { fb := Grid.build fun c r => fb.px c r && !pend.px c r
    pend := Grid.blank
    redraw := redraw || fb.meets pend
    hit := false }

/-- The update of one pixel by the sprite bit `s` (spec/44_display.md R192, R195). -/
def plot (k : Canvas) (c : Col) (r : ScrRow) (s : Bool) : Canvas :=
  let old := k.fb.px c r
  let new := old ^^ s
  { fb := if new then k.fb.setPx c r true else k.fb
    pend := if new then k.pend else k.pend.setPx c r true
    redraw := k.redraw || (new != old)
    hit := k.hit || (old && !new) }

end Canvas

/-- A sprite pixel: where it goes and its bit. -/
structure Dot where
  col : Col
  row : ScrRow
  bit : Bool
deriving DecidableEq, Repr

/-- The target column of bit index `bit`: `(vx + bit) mod 64` (spec/44_display.md R194). -/
def colOf (vx : Byte) (bit : Nat) : Col := ⟨(vx.toNat + bit) % 64, Nat.mod_lt _ (by decide)⟩

/-- The target row of sprite row `row`: `(vy + row) mod 32` (spec/44_display.md R194). -/
def rowOf (vy : Byte) (row : Nat) : ScrRow := ⟨(vy.toNat + row) % 32, Nat.mod_lt _ (by decide)⟩

/-- One sprite row: the bits of its byte, most significant first, the bit with index `bit` being `b[7 - bit]`
(spec/44_display.md R194). -/
def rowDots (vx vy : Byte) (row : Nat) (b : Byte) : List Dot :=
  (List.range 8).map fun bit => { col := colOf vx bit, row := rowOf vy row, bit := b.getLsbD (7 - bit) }

/-- The sprite's pixels in drawing order: row after row, each from its most significant bit
(spec/44_display.md R192, R194). `byteAt row` is the byte of that row. -/
def spriteDots (vx vy : Byte) (n : Nat) (byteAt : Nat → Byte) : List Dot :=
  (List.range n).flatMap fun row => rowDots vx vy row (byteAt row)

/-- Draws the dots one after the other (spec/44_display.md R192). -/
def Canvas.draw (k : Canvas) (dots : List Dot) : Canvas := dots.foldl (fun k d => k.plot d.col d.row d.bit) k

end Sys2Proof.Machine
end

