-- ==== Sys2Proof/Config.lean ====
section
/-! DEFINITION. The implementation parameters a model takes as an argument (spec/00_scope.md R7, R8) and the
free values. The fixed numbers of R7 (sizes, bases) stand where they are used. The default values stand in
Machine/Defaults.lean. -/

namespace Sys2Proof

/-- Q_ADD_IMM (R7, spec/42_register_immediate.md R161). -/
inductive AddImmRule where
  | standard
  | reference
deriving DecidableEq, Repr

/-- Q_SUBN_FLAG (R7, spec/43_alu.md R171). -/
inductive SubnFlagRule where
  | pre
  | post
deriving DecidableEq, Repr

/-- Q_SHL_MASK, by the mask's value (R7, spec/43_alu.md R171). -/
inductive ShlMaskRule where
  | mask80
  | maskA0
deriving DecidableEq, Repr

/-- Q_DUMP_ADDR (R7, spec/46_misc.md R232). -/
inductive DumpAddrRule where
  | indexed
  | reference
deriving DecidableEq, Repr

/-- KEY_PICK (R7, spec/45_keypad.md R215): the lowest pressed code, or any pressed code whatever
("a model that wants to hold for every choice may instead let it be any member of keys"). -/
inductive KeyPickRule where
  | lowest
  | anyPressed
deriving DecidableEq, Repr

/-- The parameters of R7 whose row says `parameter`. They are data, so that a state can hold them and step
can run every variant of the spec. DESIGN CHOICE (log 4). -/
structure Config where
  /-- FONT, the 80 bytes at 0x000 to 0x04F (spec/20_memory.md R66). -/
  font : Vector Byte 80
  /-- Q_ADD_IMM. -/
  addImm : AddImmRule
  /-- Q_SUBN_FLAG. -/
  subnFlag : SubnFlagRule
  /-- Q_SHL_MASK. -/
  shlMask : ShlMaskRule
  /-- Q_DUMP_ADDR. -/
  dumpAddr : DumpAddrRule
  /-- KEY_PICK. -/
  keyPick : KeyPickRule
deriving DecidableEq, Repr

/-- The random byte the environment supplies to the k-th execution of CXNN (spec/00_scope.md R6,
spec/42_register_immediate.md R163: "a draw under no law"). A free value: nothing is known of it (log 3). -/
opaque Config.rnd : Nat → Byte

/-- The choice behind KEY_PICK = `anyPressed`: a number for every list of pressed codes, which selects a
member of the list modulo its length (spec/45_keypad.md R215). A free value (log 5). -/
opaque Config.keyChoice : List Nibble → Nat

end Sys2Proof
end

