-- ==== Sys2Proof/Machine/Defaults.lean ====
section
/-! DEFINITION. This hardware's values of the parameters (spec/00_scope.md R7): the column "value" of R7's table,
and the default FONT (spec/20_memory.md R66). -/

namespace Sys2Proof

/-- The glyphs of the digits 0 to 7, five bytes each, top row first (R66). PRESUMED: general knowledge in the
spec's own words (log 6). -/
def fontLow : List Byte :=
  [0xF0, 0x90, 0x90, 0x90, 0xF0, 0x20, 0x60, 0x20, 0x20, 0x70] ++
    [0xF0, 0x10, 0xF0, 0x80, 0xF0, 0xF0, 0x10, 0xF0, 0x10, 0xF0] ++
    [0x90, 0x90, 0xF0, 0x10, 0x10, 0xF0, 0x80, 0xF0, 0x10, 0xF0] ++
    [0xF0, 0x80, 0xF0, 0x90, 0xF0, 0xF0, 0x10, 0x20, 0x40, 0x40]

/-- The glyphs of the digits 8 to F (R66). PRESUMED (log 6). -/
def fontHigh : List Byte :=
  [0xF0, 0x90, 0xF0, 0x90, 0xF0, 0xF0, 0x90, 0xF0, 0x10, 0xF0] ++
    [0xF0, 0x90, 0xF0, 0x90, 0x90, 0xE0, 0x90, 0xE0, 0x90, 0xE0] ++
    [0xF0, 0x80, 0x80, 0x80, 0xF0, 0xE0, 0x90, 0x90, 0x90, 0xE0] ++
    [0xF0, 0x80, 0xF0, 0x80, 0xF0, 0xF0, 0x80, 0xF0, 0x80, 0x80]

/-- The default value of FONT (R7, R66). -/
def defaultFont : Vector Byte 80 := ⟨(fontLow ++ fontHigh).toArray, rfl⟩

/-- This hardware's parameters: every row of R7's table at its default. -/
def Config.hardware : Config :=
  { font := defaultFont, addImm := .standard, subnFlag := .pre, shlMask := .mask80, dumpAddr := .indexed,
    keyPick := .lowest }

end Sys2Proof
end

