-- ==== Sys2Proof/Machine/Memory.lean ====
section
/-! DEFINITION. The 4096-byte memory as a list of the bytes that differ from their RESET values
(spec/20_memory.md R60 to R66), in one canonical form. -/

namespace Sys2Proof.Machine

/-- MEM_SIZE (spec/00_scope.md R7). -/
def memSize : Nat := 4096

/-- PROG_BASE (R7), also PC_RESET. -/
def progBase : Nat := 0x200

/-- MAX_PROG (R7). -/
def maxProg : Nat := 3584

/-- Every byte address is reduced modulo 4096 before it reaches memory, as an exact integer (R61). -/
def reduceAddr (a : Nat) : Nat := a % memSize

/-- What an unlisted address reads as: its RESET value, FONT at 0 to 79 and 0x00 above (R65, R66,
spec/10_state.md R50). -/
def resetByte (c : Config) (a : Nat) : Byte := if h : a < 80 then c.font[a] else 0

/-- The bytes that differ from their RESET values, by address. -/
abbrev Memory := List Host.Cell

namespace Memory

/-- The listed byte at an address, if there is one. -/
def find : Memory → Nat → Option Byte
  | [], _ => none
  | (b, u) :: m, a => if b = a then some u else find m a

/-- The byte at a reduced address. -/
def read (c : Config) (m : Memory) (a : Nat) : Byte := (find m a).getD (resetByte c a)

/-- Lists the byte `v` at address `a`, in the place the rising order gives it. -/
def insert (a : Nat) (v : Byte) : Memory → Memory
  | [] => [(a, v)]
  | (b, u) :: m =>
    if a < b then (a, v) :: (b, u) :: m
    else if a = b then (a, v) :: m
    else (b, u) :: insert a v m

/-- Takes address `a` off the list. -/
def erase (a : Nat) : Memory → Memory
  | [] => []
  | (b, u) :: m => if a = b then erase a m else (b, u) :: erase a m

/-- Writes the byte at a reduced address, keeping the canonical form: a byte equal to its RESET value is not
listed. -/
def write (c : Config) (m : Memory) (a : Nat) (v : Byte) : Memory :=
  if v = resetByte c a then erase a m else insert a v m

/-- Every listed address is at least `lo`, below 4096 and below the next one, and lists no RESET value. -/
def wfFrom (c : Config) (lo : Nat) : Memory → Bool
  | [] => true
  | (a, v) :: m => decide (lo ≤ a) && decide (a < memSize) && v != resetByte c a && wfFrom c (a + 1) m

/-- The canonical form: addresses strictly rising within the space, no entry equal to what its address reads as
unlisted. Equal memories are equal lists. -/
def wf (c : Config) (m : Memory) : Bool := wfFrom c 0 m

end Memory

end Sys2Proof.Machine
end

