-- ==== Sys2Proof/Machine/State.lean ====
section
/-! DEFINITION. The state of the CORE (spec/10_state.md R30), the errors (spec/60_exceptions.md R250), the events
(spec/00_scope.md R6) and the state after power-on and RESET (spec/10_state.md R50). Plain data. -/

namespace Sys2Proof.Machine

/-- The five error kinds with the info they record (spec/60_exceptions.md R250, R252, R253). They are what the
fault record of `State` lists (R256). No step stops with one: an error is the outcome of one command, after
which "the CORE is not halted" (R255), so the step that raises it answers a next state with the error recorded.
That nothing stops is safe with R256's observation, by which a run with a recorded fault is faulted (log 2). -/
inductive Fault where
  /-- Raised by STEP on a word no handler matches: the fetch address and the word (R252). Recorded, the run goes
  on; safe. -/
  | invalidInstruction (a w : Word)
  /-- Raised by 2NNN with SP = 16: the fetch address and the word (R253). Recorded, the run goes on; safe. -/
  | stackOverflow (a w : Word)
  /-- Raised by 00EE with SP = 0: the fetch address and the word (R253). Recorded, the run goes on; safe. -/
  | stackUnderflow (a w : Word)
  /-- Raised by LOAD with more than 3584 bytes: the byte count (spec/70_reset_and_hazards.md R282). Recorded, the
  run goes on; safe. -/
  | programTooLarge (len : Nat)
  /-- Raised by KEY_DOWN and KEY_UP with a code above 15: the code (spec/45_keypad.md R210). Recorded, the run
  goes on; safe. -/
  | keyCodeOutOfRange (k : Byte)
deriving DecidableEq, Repr

/-- Why a step is refused. -/
inductive Refusal where
  /-- An instruction with no meaning yet. Raised by no arm of this model; safe. -/
  | notModelled (mnemonic : String)
  /-- STEP before the first RESET or LOAD: the outcome `Refused`, which changes nothing
  (spec/70_reset_and_hazards.md R283). Raised by `step` alone; safe. -/
  | notBooted
deriving DecidableEq, Repr

/-- The CORE's output events (spec/00_scope.md R6, spec/60_exceptions.md R262, R263). -/
inductive Event where
  /-- `beep(d)`, to the sound sink. -/
  | beep (d : Byte)
  /-- `present(g)`, to the renderer: a copy of the framebuffer. -/
  | present (g : Grid)
deriving DecidableEq, Repr

/-- The state. The first eleven fields are the hardware's (spec/10_state.md R30); `booted` and `faults` are the
bookkeeping the spec tells a model to keep; `out`, `draws` and `cfg` are the model's own (log 1, 3, 4). -/
structure State where
  /-- `mem`: the bytes that differ from their RESET values (R30, spec/20_memory.md R60). -/
  mem : Memory
  /-- The general registers V0 to VF, the spec's `x[0..15]` (R32). -/
  v : Vector Byte 16
  /-- The index register `I` (R35). -/
  i : Word
  /-- The program counter (R36). -/
  pc : Word
  /-- The call stack's 16 entries (R38). -/
  stack : Vector Word 16
  /-- `SP`: the number of entries in use, 0 to 16 (R38). -/
  sp : Fin 17
  /-- The delay timer `DT` (R41). -/
  dt : Byte
  /-- The framebuffer (R43). -/
  fb : Grid
  /-- The pending-clear grid (R44). -/
  pend : Grid
  /-- The redraw flag (R45). -/
  redraw : Bool
  /-- The keys that are down, by code (R46). -/
  keys : Vector Bool 16
  /-- A RESET or a LOAD that did not raise has been performed (spec/70_reset_and_hazards.md R283). -/
  booted : Bool
  /-- The fault record: every error outcome so far, oldest first (spec/60_exceptions.md R256). -/
  faults : List Fault
  /-- The events emitted so far, oldest first (spec/00_scope.md R6). The model's own field (log 1). -/
  out : List Event
  /-- How many random bytes CXNN has taken (spec/42_register_immediate.md R163). The model's own field (log 3). -/
  draws : Nat
  /-- The parameters of spec/00_scope.md R7. The model's own field, which no command changes (log 4). -/
  cfg : Config
deriving DecidableEq, Repr

/-- What an instruction and a step answer. -/
abbrev Result := Host.Outcome State Fault Refusal

/-- The state right after power-on and RESET (spec/10_state.md R49, R50; spec/70_reset_and_hazards.md R280,
R283). `dt`, `pend`, `redraw` and `keys` follow the spec's decision D19 (log 7); `faults`, `out` and `draws` start
empty (log 1, 2, 3). -/
def State.reset : State :=
  { mem := []
    v := Vector.replicate 16 0
    i := 0
    pc := BitVec.ofNat 16 progBase
    stack := Vector.replicate 16 0
    sp := 0
    dt := 0
    fb := Grid.blank
    pend := Grid.blank
    redraw := false
    keys := Vector.replicate 16 false
    booted := true
    faults := []
    out := []
    draws := 0
    cfg := Config.hardware }

end Sys2Proof.Machine
end

