-- ==== Sys2Proof/Machine/Ops.lean ====
section
/-! DEFINITION. The named operations over the state: registers, memory, fetch, the program counter, the call stack,
events, the reporting of an error, and the host commands RESET, LOAD, TICK, KEY_DOWN and KEY_UP. -/

namespace Sys2Proof.Machine

namespace State

/-! ## Registers (spec/10_state.md R32 to R36, R41) -/

/-- Reads general register V`r` (R32). -/
def getV (s : State) (r : Nibble) : Byte := s.v[r.val]

/-- Writes general register V`r` (R32). -/
def setV (s : State) (r : Nibble) (b : Byte) : State := { s with v := s.v.set r.val b }

/-- Writes the flag register VF, `x[15]`, with a flag bit (R34, spec/43_alu.md R170). -/
def setVF (s : State) (f : Bool) : State := s.setV 15 (if f then 1 else 0)

/-- Writes `I` (R35). -/
def setI (s : State) (a : Word) : State := { s with i := a }

/-- Writes `pc`, a 16-bit value and so modulo 2^16 (R36). -/
def setPc (s : State) (a : Word) : State := { s with pc := a }

/-- Writes `DT` (R41). -/
def setDt (s : State) (b : Byte) : State := { s with dt := b }

/-! ## Memory (spec/20_memory.md R61 to R63) -/

/-- `MemRead(a, 1)`, for an exact integer address (R61, R62). -/
def memRead (s : State) (a : Nat) : Byte := Memory.read s.cfg s.mem (reduceAddr a)

/-- `MemWrite(a, 1, b)`, for an exact integer address (R61, R63). -/
def memWrite (s : State) (a : Nat) (b : Byte) : State :=
  { s with mem := Memory.write s.cfg s.mem (reduceAddr a) b }

/-- Writes bytes at consecutive addresses, the first one at `a`, in rising order. -/
def storeBytes (s : State) (a : Nat) : List Byte → State
  | [] => s
  | b :: bs => (s.memWrite a b).storeBytes (a + 1) bs

/-! ## Fetch and the program counter (spec/40_execute.md R121) -/

/-- The two bytes at `pc` and `pc + 1` (spec/20_memory.md R68). -/
def fetchBytes (s : State) : List Byte := [s.memRead s.pc.toNat, s.memRead (s.pc.toNat + 1)]

/-- The word at `pc`, big-endian (spec/20_memory.md R68). -/
def fetchWord (s : State) : Word := wordOfBytes (s.memRead s.pc.toNat) (s.memRead (s.pc.toNat + 1))

/-- The fetch's advance: `pc <- a + 2` modulo 2^16 (R121). -/
def advance (s : State) : State := s.setPc (s.pc + 2)

/-- A skip: when the condition holds, `pc <- pc + 2` (spec/41_control.md R140). -/
def skipIf (s : State) (c : Bool) : State := if c then s.setPc (s.pc + 2) else s

/-- The address of the instruction whose handler runs: `pc` is 2 past it (spec/10_state.md R36). -/
def instrAddr (s : State) : Word := s.pc - 2

/-! ## The call stack (spec/10_state.md R38 to R40) -/

/-- `Push(a)`: none when SP = 16 (R39). -/
def push (s : State) (a : Word) : Option State :=
  if h : s.sp.val < 16 then
    some { s with stack := s.stack.set s.sp.val a, sp := ⟨s.sp.val + 1, by omega⟩ }
  else none

/-- `Pop()`: the popped value and the state after it; none when SP = 0 (R40). -/
def pop (s : State) : Option (Word × State) :=
  if h : 0 < s.sp.val then
    some (s.stack[s.sp.val - 1]'(by have := s.sp.isLt; omega),
      { s with sp := ⟨s.sp.val - 1, by have := s.sp.isLt; omega⟩ })
  else none

/-! ## The display (spec/44_display.md R190) -/

/-- Writes the display's three pieces of state. -/
def setDisplay (s : State) (fb pend : Grid) (redraw : Bool) : State :=
  { s with fb := fb, pend := pend, redraw := redraw }

/-! ## Events and errors (spec/00_scope.md R6, R11; spec/60_exceptions.md R250 to R256) -/

/-- `emit e`. -/
def emit (s : State) (e : Event) : State := { s with out := s.out ++ [e] }

/-- `raise e`: the one way an error is reported. It goes to the host as the command's outcome and into the
fault record, and it is written into no register and no memory byte; nothing is saved, no mode changes and
`pc` goes nowhere (R251, R256, R259). So there is no return from it. -/
def raise (s : State) (e : Fault) : State := { s with faults := s.faults ++ [e] }

/-- Counts one random byte as taken (spec/42_register_immediate.md R163). -/
def countDraw (s : State) : State := { s with draws := s.draws + 1 }

/-! ## Host commands -/

/-- TICK's first part: `if DT != 0 then DT <- DT - 1` (spec/60_exceptions.md R260). -/
def tickTimer (s : State) : State := if s.dt = 0 then s else s.setDt (s.dt - 1)

/-- TICK's second part, the redraw flush (spec/60_exceptions.md R261). -/
def flushRedraw (s : State) : State :=
  if s.redraw then (s.emit (.present s.fb)).setDisplay s.fb s.pend false else s

/-- TICK after boot (spec/60_exceptions.md R260, R261). -/
def tick (s : State) : State := s.tickTimer.flushRedraw

/-- RESET (spec/70_reset_and_hazards.md R280): every value of spec/10_state.md R50, with `keys` unchanged. The
fault record is never cleared (spec/60_exceptions.md R256); the model's own fields are kept. -/
def resetCommand (s : State) : State :=
  { State.reset with keys := s.keys, faults := s.faults, out := s.out, draws := s.draws, cfg := s.cfg }

/-- LOAD (spec/70_reset_and_hazards.md R281, R282): the length check, the reset, the copy, in this order. -/
def load (s : State) (bytes : List Byte) : State :=
  if bytes.length > maxProg then s.raise (.programTooLarge bytes.length)
  else s.resetCommand.storeBytes progBase bytes

/-- Puts the key of code `k` down or up; a code above 15 is reported (spec/45_keypad.md R210). -/
def setKey (s : State) (k : Byte) (down : Bool) : State :=
  if h : k.toNat < 16 then { s with keys := s.keys.set k.toNat down }
  else s.raise (.keyCodeOutOfRange k)

/-- A state before the first RESET or LOAD: every element is what `any` says, except that no key is down
(spec/10_state.md R49, spec/70_reset_and_hazards.md R283). -/
def powerOn (any : State) : State :=
  { any with keys := Vector.replicate 16 false, booted := false, faults := [], out := [] }

end State

/-- Ends an instruction with an error: it records the address and the word of the instruction `i`, and its
state is the state after the fetch (spec/60_exceptions.md R251, R253). -/
def raiseIn (s : State) (i : Instr) (kind : Word → Word → Fault) : State :=
  s.raise (kind s.instrAddr (encodeWord i))

/-- The end of a STEP whose word `w`, fetched at `a`, matches no handler (spec/40_execute.md R125); `s` is the
state after the fetch's advance. -/
def raiseInvalid (s : State) (a w : Word) : State := s.raise (.invalidInstruction a w)

/-- The numeric code of an error kind (spec/60_exceptions.md R250). -/
def Fault.code : Fault → Nat
  | .invalidInstruction _ _ => 1
  | .stackOverflow _ _ => 2
  | .stackUnderflow _ _ => 3
  | .programTooLarge _ => 4
  | .keyCodeOutOfRange _ => 5

end Sys2Proof.Machine
end

