-- ==== Sys2Proof/Machine/Operands.lean ====
section
/-! DEFINITION. How operands are built: extended fields, keys, the random byte, the sprite and the address of each
byte that FX55 stores (spec/30_encoding.md R94, spec/45_keypad.md R211, R215, spec/46_misc.md R232). -/

namespace Sys2Proof.Machine

/-- `zext_16` of a 12-bit address (spec/30_encoding.md R94). -/
def zextAddr (nnn : Addr12) : Word := nnn.setWidth 16

/-- `zext_16` of a byte (spec/00_scope.md R10). -/
def zextByte (b : Byte) : Word := b.setWidth 16

/-- The address a byte access through `I` at offset `k` uses, as an exact integer (spec/20_memory.md R61). -/
def State.atI (s : State) (k : Nat) : Nat := s.i.toNat + k

/-- `pressed(b)`: the value is a code in `keys`; false for every value above 15 (spec/45_keypad.md R211). -/
def State.pressed (s : State) (b : Byte) : Bool := if h : b.toNat < 16 then s.keys[b.toNat] else false

/-- The pressed codes in rising order. -/
def State.keysDown (s : State) : List Nibble := (List.finRange 16).filter fun k => s.keys[k.val]

/-- `KEY_PICK(keys)`; none when no key is down (spec/45_keypad.md R214, R215). -/
def State.pickKey (s : State) : Option Nibble :=
  match s.cfg.keyPick with
  | .lowest => s.keysDown.head?
  | .anyPressed => s.keysDown[Config.keyChoice s.keysDown % s.keysDown.length]?

/-- A key code as the 8-bit value FX0A writes. -/
def keyByte (k : Nibble) : Byte := BitVec.ofNat 8 k.val

/-- The address FX55 stores V`k` at, by Q_DUMP_ADDR (spec/46_misc.md R232). -/
def State.dumpAddr (s : State) (k : Nat) : Nat :=
  match s.cfg.dumpAddr with
  | .indexed => s.atI k
  | .reference => s.atI 1

/-- The sprite DXYN draws: N rows of 8 pixels from the bytes at I, at column Vx and row Vy
(spec/44_display.md R194). -/
def State.sprite (s : State) (x y n : Nibble) : List Dot :=
  spriteDots (s.getV x) (s.getV y) n.val fun row => s.memRead (s.atI row)

/-- The decimal digits of a byte: hundreds, tens, ones (spec/46_misc.md R231). -/
def bcdDigits (b : Byte) : List Byte :=
  [BitVec.ofNat 8 (b.toNat / 100), BitVec.ofNat 8 (b.toNat / 10 % 10), BitVec.ofNat 8 (b.toNat % 10)]

end Sys2Proof.Machine
end

