-- ==== Sys2Proof/Machine/Flags.lean ====
section
/-! DEFINITION. The vf_carry_flag sub-block (spec/43_alu.md R170, R171) and 7XNN's sum by Q_ADD_IMM
(spec/42_register_immediate.md R161). The collision flag is the canvas's (Machine/Grid.lean). -/

namespace Sys2Proof.Machine

/-- ADD: `(vx + vy > 255) ? 1 : 0` (R171). -/
def carryFlag (vx vy : Byte) : Bool := decide (255 < vx.toNat + vy.toNat)

/-- No borrow in `a - b`: `(a >= b) ? 1 : 0` (R171; SUB, and SUBN with its operands exchanged). -/
def noBorrowFlag (a b : Byte) : Bool := decide (b.toNat ≤ a.toNat)

/-- SHR: `vx[0]`, the bit shifted out (R171). -/
def shrFlag (vx : Byte) : Bool := vx.getLsbD 0

/-- SHL by Q_SHL_MASK: `vx[7]`, or `(vx & 0xA0) != 0` (R171). -/
def shlFlag (c : Config) (vx : Byte) : Bool :=
  match c.shlMask with
  | .mask80 => vx.getLsbD 7
  | .maskA0 => vx &&& 0xA0#8 != 0#8

/-- SUBN by Q_SUBN_FLAG: from the operands read before the instruction writes, or from the registers read
after the result is written (R171). `before` and `after` are the states before and after that write. -/
def subnFlag (before after : State) (x y : Nibble) : Bool :=
  match before.cfg.subnFlag with
  | .pre => noBorrowFlag (before.getV y) (before.getV x)
  | .post => noBorrowFlag (after.getV y) (after.getV x)

/-- 7XNN's result by Q_ADD_IMM (spec/42_register_immediate.md R161). -/
def addImmResult (c : Config) (vx nn : Byte) : Byte :=
  let sum := vx.toNat + nn.toNat
  match c.addImm with
  | .standard => BitVec.ofNat 8 sum
  | .reference => BitVec.ofNat 8 (if 255 < sum then sum - 255 else sum)

end Sys2Proof.Machine
end

