-- ==== Sys2Proof/Machine/Alu.lean ====
section
/-! DEFINITION. The arithmetic and logic group (spec/43_alu.md). The operands are read before any write
(spec/40_execute.md R127); the result is written first and its flag second (R128). -/

namespace Sys2Proof.Machine

/-- Writes a result to Vx and then a flag to VF (spec/40_execute.md R128). -/
def State.setVThenVF (s : State) (x : Nibble) (b : Byte) (f : Bool) : State := (s.setV x b).setVF f

/-- 8XY0, copy register (R172). -/
def execLdReg (x y : Nibble) (s : State) : Result := .next (s.setV x (s.getV y))

/-- 8XY1, bitwise OR (R173). -/
def execOr (x y : Nibble) (s : State) : Result := .next (s.setV x (s.getV x ||| s.getV y))

/-- 8XY2, bitwise AND (R174). -/
def execAnd (x y : Nibble) (s : State) : Result := .next (s.setV x (s.getV x &&& s.getV y))

/-- 8XY3, bitwise exclusive OR (R175). -/
def execXor (x y : Nibble) (s : State) : Result := .next (s.setV x (s.getV x ^^^ s.getV y))

/-- 8XY4, add with carry out (R176). -/
def execAddReg (x y : Nibble) (s : State) : Result :=
  .next (s.setVThenVF x (s.getV x + s.getV y) (carryFlag (s.getV x) (s.getV y)))

/-- 8XY5, subtract with no-borrow flag (R177). -/
def execSub (x y : Nibble) (s : State) : Result :=
  .next (s.setVThenVF x (s.getV x - s.getV y) (noBorrowFlag (s.getV x) (s.getV y)))

/-- 8XY6, shift right by one (R178); Vy is not read. -/
def execShr (x : Nibble) (s : State) : Result :=
  .next (s.setVThenVF x (s.getV x >>> 1) (shrFlag (s.getV x)))

/-- 8XY7, reverse subtract (R179). -/
def execSubn (x y : Nibble) (s : State) : Result :=
  let t := s.setV x (s.getV y - s.getV x)
  .next (t.setVF (subnFlag s t x y))

/-- 8XYE, shift left by one (R180); Vy is not read. -/
def execShl (x : Nibble) (s : State) : Result :=
  .next (s.setVThenVF x (s.getV x <<< 1) (shlFlag s.cfg (s.getV x)))

end Sys2Proof.Machine
end

