-- ==== Sys2Proof/Machine/Control.lean ====
section
/-! DEFINITION. Control transfer and skips (spec/41_control.md). A meaning runs after the fetch's advance: `s.pc` is
the instruction's address plus 2 (spec/40_execute.md R129). -/

namespace Sys2Proof.Machine

/-- 00EE, return from subroutine (R141). -/
def execRet (x : Nibble) (s : State) : Result :=
  match s.pop with
  | some (a, t) => .next (t.setPc a)
  | none => .next (raiseIn s (.ret x) .stackUnderflow)

/-- 1NNN, jump (R142). -/
def execJp (nnn : Addr12) (s : State) : Result := .next (s.setPc (zextAddr nnn))

/-- 2NNN, call subroutine (R143). -/
def execCall (nnn : Addr12) (s : State) : Result :=
  match s.push s.pc with
  | some t => .next (t.setPc (zextAddr nnn))
  | none => .next (raiseIn s (.call nnn) .stackOverflow)

/-- 3XNN, skip if equal to immediate (R144). -/
def execSeImm (x : Nibble) (nn : Byte) (s : State) : Result := .next (s.skipIf (s.getV x == nn))

/-- 4XNN, skip if not equal to immediate (R145). -/
def execSneImm (x : Nibble) (nn : Byte) (s : State) : Result := .next (s.skipIf (s.getV x != nn))

/-- 5XYN, skip if registers equal (R146). -/
def execSeReg (x y : Nibble) (s : State) : Result := .next (s.skipIf (s.getV x == s.getV y))

/-- 9XYN, skip if registers differ (R147). -/
def execSneReg (x y : Nibble) (s : State) : Result := .next (s.skipIf (s.getV x != s.getV y))

/-- BNNN, jump with offset V0 (R148). -/
def execJpV0 (nnn : Addr12) (s : State) : Result := .next (s.setPc (zextByte (s.getV 0) + zextAddr nnn))

end Sys2Proof.Machine
end

