-- ==== Sys2Proof/Machine/Display.lean ====
section
/-! DEFINITION. The two display instructions (spec/44_display.md). -/

namespace Sys2Proof.Machine

/-- 00E0, clear the display (R191). -/
def execCls (s : State) : Result := .next (s.setDisplay Grid.blank Grid.blank true)

/-- The canvas DXYN leaves: the flush, then the sprite's pixels (R192). -/
def State.drawn (s : State) (x y n : Nibble) : Canvas :=
  (Canvas.flush s.fb s.pend s.redraw).draw (s.sprite x y n)

/-- DXYN, draw sprite (R192 to R196). Vx, Vy and I are read first; VF ends as the collision bit. -/
def execDrw (x y n : Nibble) (s : State) : Result :=
  let k := s.drawn x y n
  .next ((s.setDisplay k.fb k.pend k.redraw).setVF k.hit)

end Sys2Proof.Machine
end

