-- ==== Sys2Proof/Machine/Immediate.lean ====
section
/-! DEFINITION. Register and immediate operations (spec/42_register_immediate.md). -/

namespace Sys2Proof.Machine

/-- 6XNN, load immediate (R160). -/
def execLdImm (x : Nibble) (nn : Byte) (s : State) : Result := .next (s.setV x nn)

/-- 7XNN, add immediate (R161); VF is not written as a flag. -/
def execAddImm (x : Nibble) (nn : Byte) (s : State) : Result :=
  .next (s.setV x (addImmResult s.cfg (s.getV x) nn))

/-- ANNN, load index (R162). -/
def execLdI (nnn : Addr12) (s : State) : Result := .next (s.setI (zextAddr nnn))

/-- CXNN with the random byte `r` the environment supplies (R163). -/
def rndWith (r : Byte) (x : Nibble) (nn : Byte) (s : State) : State := (s.setV x (r &&& nn)).countDraw

/-- CXNN, random AND mask (R163): every execution takes exactly one draw, a free value (log 3). -/
def execRnd (x : Nibble) (nn : Byte) (s : State) : Result := .next (rndWith (Config.rnd s.draws) x nn s)

end Sys2Proof.Machine
end

