-- ==== Sys2Proof/Machine/Keypad.lean ====
section
/-! DEFINITION. The instructions that read the key set (spec/45_keypad.md). -/

namespace Sys2Proof.Machine

/-- EX9E, skip if key pressed (R212). -/
def execSkp (x : Nibble) (s : State) : Result := .next (s.skipIf (s.pressed (s.getV x)))

/-- EXA1, skip if key not pressed (R213). -/
def execSknp (x : Nibble) (s : State) : Result := .next (s.skipIf (!s.pressed (s.getV x)))

/-- FX0A, wait for a key (R214): with no key down `pc` goes back to the instruction's own address. -/
def execLdK (x : Nibble) (s : State) : Result :=
  match s.pickKey with
  | none => .next (s.setPc (s.pc - 2))
  | some k => .next (s.setV x (keyByte k))

end Sys2Proof.Machine
end

