-- ==== Sys2Proof/Machine/Misc.lean ====
section
/-! DEFINITION. The miscellaneous group (spec/46_misc.md). -/

namespace Sys2Proof.Machine

/-- FX07, read the delay timer (R226). -/
def execLdVxDt (x : Nibble) (s : State) : Result := .next (s.setV x s.dt)

/-- FX15, set the delay timer (R227). -/
def execLdDtVx (x : Nibble) (s : State) : Result := .next (s.setDt (s.getV x))

/-- FX18, request a beep (R228). -/
def execLdStVx (x : Nibble) (s : State) : Result := .next (s.emit (.beep (s.getV x)))

/-- FX1E, add to the index, modulo 2^16 (R229); VF is not written. -/
def execAddIVx (x : Nibble) (s : State) : Result := .next (s.setI (s.i + zextByte (s.getV x)))

/-- FX29, point I at a font glyph: `I <- vx * 5`, of the whole byte (R230). -/
def execLdFVx (x : Nibble) (s : State) : Result := .next (s.setI (zextByte (s.getV x) * 5))

/-- FX33, store binary-coded decimal at I, I + 1, I + 2 (R231). -/
def execLdBVx (x : Nibble) (s : State) : Result := .next (s.storeBytes (s.atI 0) (bcdDigits (s.getV x)))

/-- Stores V0 to Vx, in this order (R232). -/
def State.dumpRegs (s : State) (x : Nibble) : State :=
  (List.range (x.val + 1)).foldl (fun t k => t.memWrite (s.dumpAddr k) (s.getV (Fin.ofNat 16 k))) s

/-- FX55, store registers V0 to Vx (R232). -/
def execLdMemVx (x : Nibble) (s : State) : Result := .next (s.dumpRegs x)

/-- Loads V0 to Vx, in this order (R233). -/
def State.loadRegs (s : State) (x : Nibble) : State :=
  (List.range (x.val + 1)).foldl (fun t k => t.setV (Fin.ofNat 16 k) (s.memRead (s.atI k))) s

/-- FX65, load registers V0 to Vx (R233). -/
def execLdVxMem (x : Nibble) (s : State) : Result := .next (s.loadRegs x)

end Sys2Proof.Machine
end

