-- ==== Sys2Proof/Machine/Step.lean ====
section
/-! DEFINITION. The STEP command (spec/40_execute.md R120 to R126) and the host's way of placing an instruction. -/

namespace Sys2Proof.Machine

/-- One STEP: refused before boot; else fetch, advance, decode, and either the instruction's meaning or the error
InvalidInstruction with the fetch address and the word. -/
def step (s : State) : Host.Outcome State Fault Refusal :=
  if s.booted then
    match decode s.fetchBytes with
    | .ok (i, _) => exec i s.advance
    | .error _ => .next (raiseInvalid s.advance s.pc s.fetchWord)
  else .refused .notBooted

/-- `s` with the instruction whose bits are `w` (every bit from `nbits` up being 0) in the two bytes the next
fetch reads, and able to step. It stands for the LOAD that brings a program in (log 9). -/
def State.withFetchWord (s : State) (nbits w : Nat) : State :=
  { s.storeBytes s.pc.toNat (bytesOfWord (BitVec.ofNat 16 (w % 2 ^ nbits))) with booted := true }

end Sys2Proof.Machine
end

