-- ==== Sys2Proof/Machine/Commands.lean ====
section
/-! DEFINITION. The six host commands and their responses (spec/00_scope.md R5, R6). -/

namespace Sys2Proof.Machine

/-- What the host issues (spec/00_scope.md R5). -/
inductive Command where
  | reset
  | load (bytes : List Byte)
  | step
  | tick
  | keyDown (k : Byte)
  | keyUp (k : Byte)
deriving DecidableEq, Repr

/-- A command's outcome (spec/00_scope.md R6). -/
inductive CommandOutcome where
  | ok
  | error (e : Fault)
  | refused
deriving DecidableEq, Repr

/-- What a command answers: its outcome, the state after it and the events it emitted. -/
structure Response where
  outcome : CommandOutcome
  state : State
  events : List Event
deriving DecidableEq, Repr

/-- The response of a command that took `s` to `t`: the error it recorded, if it recorded one (a command raises
at most one, spec/60_exceptions.md R257), and the events it added. -/
def respond (s t : State) : Response :=
  { outcome := match (t.faults.drop s.faults.length).head? with
      | some e => .error e
      | none => .ok
    state := t
    events := t.out.drop s.out.length }

/-- The response `Refused`, which changes nothing (spec/70_reset_and_hazards.md R283). -/
def refuse (s : State) : Response := { outcome := .refused, state := s, events := [] }

/-- One atomic command (spec/00_scope.md R5, R6). -/
def command (c : Command) (s : State) : Response :=
  match c with
  | .reset => respond s s.resetCommand
  | .load bytes => respond s (s.load bytes)
  | .step =>
    match step s with
    | .next t => respond s t
    | .fault e => { outcome := .error e, state := s, events := [] }
    | .refused _ => refuse s
  | .tick => if s.booted then respond s s.tick else refuse s
  | .keyDown k => respond s (s.setKey k true)
  | .keyUp k => respond s (s.setKey k false)

/-- The state after a command sequence, the host's schedule (spec/60_exceptions.md R265). -/
def runCommands (cs : List Command) (s : State) : State := cs.foldl (fun s c => (command c s).state) s

end Sys2Proof.Machine
end

