-- ==== Sys2Proof/Safety.lean ====
section
/-! DEFINITION. The terms the statements use: what a run's observation is, the invariant, the frame of an
instruction, and the logical display. -/

namespace Sys2Proof.Machine

/-! ## Safe runs (spec/60_exceptions.md R256) -/

/-- A run with a recorded fault is observed as faulted, whatever the host does next (R256). -/
def State.faulted (s : State) : Bool := !s.faults.isEmpty

/-- The commands run from `s` without an error: a safe run. -/
def RunsClean (cs : List Command) (s : State) : Prop := (runCommands cs s).faults = s.faults

/-- `t` is reached from `s` by some command sequence (spec/60_exceptions.md R265). -/
def Reaches (s t : State) : Prop := ∃ cs, runCommands cs s = t

/-! ## The invariant -/

/-- Memory is in its canonical form: every listed address is one of the 4096 (spec/20_memory.md R60), in rising
order, and lists a byte that differs from its RESET value. -/
def State.Inv (s : State) : Prop := Memory.wf s.cfg s.mem = true

/-! ## Frames -/

/-- What an instruction may change. Everything not named stays as it was. -/
structure Footprint where
  /-- The general registers that may change. -/
  regs : Nibble → Prop := fun _ => False
  /-- The memory addresses, reduced, that may change. -/
  mem : Nat → Prop := fun _ => False
  i : Bool := false
  pc : Bool := false
  stack : Bool := false
  dt : Bool := false
  display : Bool := false
  faults : Bool := false
  out : Bool := false
  draws : Bool := false

/-- Between `s` and `t` nothing outside the footprint has changed. Memory is compared byte by byte, through
`memRead`; the keys, `booted` and the parameters never change (spec/40_execute.md R120). -/
structure Frame (s t : State) (f : Footprint) : Prop where
  regs : ∀ r, ¬ f.regs r → t.getV r = s.getV r
  mem : ∀ a, ¬ f.mem (reduceAddr a) → t.memRead a = s.memRead a
  i : f.i = false → t.i = s.i
  pc : f.pc = false → t.pc = s.pc
  stack : f.stack = false → t.stack = s.stack ∧ t.sp = s.sp
  dt : f.dt = false → t.dt = s.dt
  display : f.display = false → t.fb = s.fb ∧ t.pend = s.pend ∧ t.redraw = s.redraw
  faults : f.faults = false → t.faults = s.faults
  out : f.out = false → t.out = s.out
  draws : f.draws = false → t.draws = s.draws
  keys : t.keys = s.keys
  booted : t.booted = s.booted
  cfg : t.cfg = s.cfg

/-! ## Which instructions write the general registers (spec/10_state.md R33, R34) -/

/-- The general registers an instruction may write: its destination Vx, the registers FX65 loads, and VF for the
six instructions that write it as a flag (R33, R34). -/
def mayWriteReg (r : Nibble) : Instr → Prop
  | .ldImm x _ | .addImm x _ | .rnd x _ => r = x
  | .ldReg x _ | .orReg x _ | .andReg x _ | .xorReg x _ => r = x
  | .addReg x _ | .sub x _ | .shr x _ | .subn x _ | .shl x _ => r = x ∨ r = 15
  | .ldVxDt x | .ldK x => r = x
  | .ldVxMem x => r ≤ x
  | .drw _ _ _ => r = 15
  | .cls _ | .ret _ | .jp _ | .call _ | .seImm _ _ | .sneImm _ _ | .seReg _ _ _ | .sneReg _ _ _ => False
  | .ldI _ | .jpV0 _ | .skp _ | .sknp _ | .ldDtVx _ | .ldStVx _ | .addIVx _ | .ldFVx _ => False
  | .ldBVx _ | .ldMemVx _ => False

/-! ## The display as DXYN's rules describe it (spec/44_display.md R194, R198) -/

/-- The logical display `L[c][r] = fb[c][r] and not pend[c][r]` (R198). -/
def State.logical (s : State) (c : Col) (r : ScrRow) : Bool := s.fb.px c r && !s.pend.px c r

/-- Sprite row `row` and bit index `bit` of DXYN go to the pixel at column `c` and row `r` (R194). -/
def State.lands (s : State) (x y n : Nibble) (row bit : Nat) (c : Col) (r : ScrRow) : Prop :=
  row < n.val ∧ bit < 8 ∧
    c.val = ((s.getV x).toNat + bit) % 64 ∧ r.val = ((s.getV y).toNat + row) % 32

/-- The pixel is in the N x 8 box of DXYN's sprite. -/
def State.boxed (s : State) (x y n : Nibble) (c : Col) (r : ScrRow) : Prop :=
  ∃ row bit, s.lands x y n row bit c r

/-- The pixel is covered by a 1-bit of DXYN's sprite: the set M of R198. -/
def State.covered (s : State) (x y n : Nibble) (c : Col) (r : ScrRow) : Prop :=
  ∃ row bit, s.lands x y n row bit c r ∧ (s.memRead (s.i.toNat + row)).getLsbD (7 - bit) = true

end Sys2Proof.Machine
end

