-- ==== Sys2Proof/Certificates/Slice0/Obligations.lean ====
section
/-! DEFINITION. The statements for the provers. Each formalises or rests on rules of spec/; a docstring names them.
Where a clause rests on a decision that the spec marks as its own (92_eei_decisions.md, D<n>) or on an entry of the
model's assumption log (log <n>), the docstring says so. -/

open Sys2Proof Sys2Proof.Machine

/-! ## Decoding and the step -/

/-- R91: the decoder's six fields are the documented shifts and masks of the word; NN is {Y, N} and NNN is
{X, Y, N}. -/
def Obligations.DecoderFieldsAreShiftsAndMasks : Prop :=
  ∀ w : Word,
    (fieldsOf w).set.val = (w >>> 12).toNat ∧
    (fieldsOf w).nnn.toNat = (w &&& 0x0FFF).toNat ∧
    (fieldsOf w).nn.toNat = (w &&& 0x00FF).toNat ∧
    (fieldsOf w).n.val = (w &&& 0x000F).toNat ∧
    (fieldsOf w).x.val = ((w >>> 8) &&& 0x0F).toNat ∧
    (fieldsOf w).y.val = ((w >>> 4) &&& 0x0F).toNat ∧
    (fieldsOf w).nn.toNat = 16 * (fieldsOf w).y.val + (fieldsOf w).n.val ∧
    (fieldsOf w).nnn.toNat = 256 * (fieldsOf w).x.val + (fieldsOf w).nn.toNat

/-- R97: a word decodes to an instruction exactly when it selects a row of the opcode map; the instruction is of
that row; no word selects two rows. -/
def Obligations.OpcodeMapSelectsInstruction : Prop :=
  (∀ (w : Word) (row : Row), row ∈ opcodeTable → row.Selects w → ∃ i, decodeWord w = .ok i ∧ i.row = row) ∧
  (∀ (w : Word) (i : Instr), decodeWord w = .ok i → i.row ∈ opcodeTable ∧ i.row.Selects w) ∧
  ∀ (w : Word) (r q : Row), r ∈ opcodeTable → q ∈ opcodeTable → r.Selects w → q.Selects w → r = q

/-- Decode and encode agree, on bytes with anything after them and on words, in both directions: every instruction,
with every operand at every value, ignored fields included. -/
def Obligations.DecodeEncodeAgree : Prop :=
  (∀ (i : Instr) (rest : List Byte), decode (encode i ++ rest) = .ok (i, rest)) ∧
  ∀ (w : Word) (i : Instr), decodeWord w = .ok i ↔ encodeWord i = w

/-- The words that are no instruction are exactly those of the four sub-dispatches whose selector matches no row: what
R98 to R101 say of invalid words, and R95's clause that the first level never fails. -/
def Obligations.InvalidWordsAreTheUnmatchedSelectors : Prop :=
  ∀ w : Word, (∃ e, decodeWord w = .error e) ↔
    ((setOf w = 0x0 ∧ nnOf w ∉ ([0xE0, 0xEE] : List Byte)) ∨
      (setOf w = 0x8 ∧ nOf w ∉ ([0, 1, 2, 3, 4, 5, 6, 7, 0xE] : List Nibble)) ∨
      (setOf w = 0xE ∧ nnOf w ∉ ([0x9E, 0xA1] : List Byte)) ∨
      (setOf w = 0xF ∧ nnOf w ∉ ([0x07, 0x0A, 0x15, 0x18, 0x1E, 0x29, 0x33, 0x55, 0x65] : List Byte)))

/-- A few words, one of each format, decode to the instructions R97's table gives them (a sanity statement). -/
def Obligations.SampleWordsDecode : Prop :=
  decodeWord 0x0FEE = .ok (.ret 0xF) ∧ decodeWord 0x2ABC = .ok (.call 0xABC) ∧
  decodeWord 0xC30F = .ok (.rnd 3 0x0F) ∧ decodeWord 0xD12F = .ok (.drw 1 2 15) ∧
  decodeWord 0x8AB4 = .ok (.addReg 10 11) ∧ decodeWord 0xF265 = .ok (.ldVxMem 2) ∧
  decodeWord 0x0123 = .error (.invalidSet0 0x23)

/-- The bits R96 calls ignored do not change behaviour: the value of the ignored field makes no difference to what
the instruction does. Only the error that RET raises on an empty stack records it, as part of the word. -/
def Obligations.IgnoredFieldsDoNotMatter : Prop :=
  ∀ (s : State) (a b : Nibble),
    exec (.cls a) s = exec (.cls b) s ∧
    (0 < s.sp.val → exec (.ret a) s = exec (.ret b) s) ∧
    (∀ t u, exec (.ret a) s = .next t → exec (.ret b) s = .next u → { t with faults := u.faults } = u) ∧
    ∀ x y : Nibble,
      exec (.seReg x y a) s = exec (.seReg x y b) s ∧ exec (.sneReg x y a) s = exec (.sneReg x y b) s ∧
      exec (.shr x a) s = exec (.shr x b) s ∧ exec (.shl x a) s = exec (.shl x b) s

/-- R121: a STEP fetches the two bytes at pc and pc + 1, the first one high, and advances pc by 2 (modulo 2^16),
whether the word is valid or not. When it is an instruction the STEP is that instruction's meaning on the state so
advanced; when it is none the advance stays made, in a next state by log 2. The advance changes pc alone. -/
def Obligations.StepRunsDecodedInstruction : Prop :=
  ∀ s : State, s.booted = true →
    s.fetchWord.toNat = 256 * (s.memRead s.pc.toNat).toNat + (s.memRead (s.pc.toNat + 1)).toNat ∧
    s.advance.pc.toNat = (s.pc.toNat + 2) % 65536 ∧ Frame s s.advance { pc := true } ∧
    (∀ i, decodeWord s.fetchWord = .ok i → step s = exec i s.advance) ∧
    ∀ e, decodeWord s.fetchWord = .error e → ∃ t, step s = .next t ∧ t.pc = s.advance.pc

/-- A STEP on a word that is no instruction raises InvalidInstruction(a, w), leaves pc at a + 2, changes nothing
else and emits no event (R125). That the step answers a next state with the error appended to `faults` is log 2,
read from R251, R255, R256 and the spec's decision D15; that the error holds a and w is the spec's decision D14. -/
def Obligations.InvalidWordRecordsErrorAndAdvances : Prop :=
  ∀ (s : State) (e : DecodeError), s.booted = true → decodeWord s.fetchWord = .error e →
    ∃ t, step s = .next t ∧ t.pc = s.pc + 2 ∧ t.faults = s.faults ++ [.invalidInstruction s.pc s.fetchWord] ∧
      Frame s t { pc := true, faults := true }

/-- A byte written reads back at every address equal to the written one modulo 4096, every other byte is unchanged
and a write changes nothing but memory (R61, R62, R63: the reduction is the spec's decision D2). Two memories in
canonical form that read the same at every address are the same list. -/
def Obligations.MemoryReadsBackWrites : Prop :=
  (∀ (s : State) (a q : Nat) (b : Byte),
    s.memRead a = s.memRead (a % 4096) ∧
    (s.memWrite a b).memRead q = (if a % 4096 = q % 4096 then b else s.memRead q) ∧
    Frame s (s.memWrite a b) { mem := fun p => p = a % 4096 }) ∧
  ∀ s t : State, s.Inv → t.Inv → s.cfg = t.cfg → (∀ a, s.memRead a = t.memRead a) → s.mem = t.mem

/-- STEP and TICK before the first RESET or LOAD are refused and change nothing; RESET and a LOAD that fits boot the
CORE, a LOAD that does not fit leaves it unbooted, and key commands leave it as it was. The spec marks this as its
own decision D20; `booted` is the bookkeeping its R283 tells a model to keep. -/
def Obligations.RefusedUntilBooted : Prop :=
  ∀ s : State,
    (s.booted = false → step s = .refused .notBooted ∧
      command .step s = refuse s ∧ command .tick s = refuse s ∧
      (∀ bs : List Byte, 3584 < bs.length → (command (.load bs) s).state.booted = false)) ∧
    (command .reset s).state.booted = true ∧ (command .reset s).outcome = .ok ∧
    (∀ bs : List Byte, bs.length ≤ 3584 →
      (command (.load bs) s).state.booted = true ∧ (command (.load bs) s).outcome = .ok) ∧
    ∀ k : Byte, (command (.keyDown k) s).state.booted = s.booted ∧ (command (.keyUp k) s).state.booted = s.booted

/-! ## Control transfer -/

/-- R142: 1NNN sets pc to NNN and changes nothing else. -/
def Obligations.JumpSetsPc : Prop :=
  (∀ w : Word, w &&& 0xF000 = 0x1000 → decodeWord w = .ok (.jp (nnnOf w))) ∧
  ∀ (nnn : Addr12) (s : State), ∃ t, exec (.jp nnn) s = .next t ∧ t.pc.toNat = nnn.toNat ∧
    Frame s t { pc := true }

/-- R143: 2NNN with SP below 16 pushes the address after the call and jumps; with SP = 16 it records
StackOverflow(a, w), pushes nothing and leaves pc. The error is the spec's decision D13. `s` is the state after the
fetch's advance, so a is pc - 2. -/
def Obligations.CallPushesAndJumps : Prop :=
  (∀ w : Word, w &&& 0xF000 = 0x2000 → decodeWord w = .ok (.call (nnnOf w))) ∧
  ∀ (nnn : Addr12) (s : State),
    (∀ h : s.sp.val < 16, ∃ t, exec (.call nnn) s = .next t ∧ t.pc.toNat = nnn.toNat ∧
      t.sp.val = s.sp.val + 1 ∧ t.stack[s.sp.val] = s.pc ∧
      (∀ (k : Nat) (hk : k < 16), k ≠ s.sp.val → t.stack[k] = s.stack[k]) ∧
      Frame s t { pc := true, stack := true }) ∧
    (s.sp.val = 16 → ∃ t w, exec (.call nnn) s = .next t ∧ w.toNat = 0x2000 + nnn.toNat ∧
      t.faults = s.faults ++ [.stackOverflow (s.pc - 2) w] ∧ Frame s t { faults := true })

/-- R141: 00EE with SP above 0 sets pc to the popped value as it is; with SP = 0 it records StackUnderflow(a, w) and
changes nothing else. The error is the spec's decision D13. `s` is the state after the fetch's advance, so a is
pc - 2. -/
def Obligations.ReturnPopsPc : Prop :=
  (∀ w : Word, w &&& 0xF0FF = 0x00EE → decodeWord w = .ok (.ret (xOf w))) ∧
  ∀ (x : Nibble) (s : State),
    (∀ h : 0 < s.sp.val, ∃ t, exec (.ret x) s = .next t ∧
      t.pc = s.stack[s.sp.val - 1]'(by have := s.sp.isLt; omega) ∧
      t.sp.val = s.sp.val - 1 ∧ t.stack = s.stack ∧ Frame s t { pc := true, stack := true }) ∧
    (s.sp.val = 0 → ∃ t w, exec (.ret x) s = .next t ∧ w.toNat = 0xEE + 256 * x.val ∧
      t.faults = s.faults ++ [.stackUnderflow (s.pc - 2) w] ∧ Frame s t { faults := true })

/-- A STEP that overflows or underflows the call stack records the address it fetched from and the very word it
fetched, ignored bits included, and leaves pc at a + 2. The spec marks the reported error as its decision D13. -/
def Obligations.StackErrorsRecordTheFetchedWord : Prop :=
  ∀ s : State, s.booted = true →
    (∀ nnn, decodeWord s.fetchWord = .ok (.call nnn) → s.sp.val = 16 →
      ∃ t, step s = .next t ∧ t.pc = s.pc + 2 ∧ t.faults = s.faults ++ [.stackOverflow s.pc s.fetchWord] ∧
        Frame s t { pc := true, faults := true }) ∧
    ∀ x, decodeWord s.fetchWord = .ok (.ret x) → s.sp.val = 0 →
      ∃ t, step s = .next t ∧ t.pc = s.pc + 2 ∧ t.faults = s.faults ++ [.stackUnderflow s.pc s.fetchWord] ∧
        Frame s t { pc := true, faults := true }

/-- A RET in a subroutine that left the stack as its CALL made it goes back to the instruction after the CALL with
SP as it was before it. -/
def Obligations.ReturnUndoesCall : Prop :=
  ∀ (nnn : Addr12) (x : Nibble) (s t u : State), s.sp.val < 16 → exec (.call nnn) s = .next t →
    u.stack = t.stack → u.sp = t.sp → ∃ z, exec (.ret x) u = .next z ∧ z.pc = s.pc ∧ z.sp = s.sp

/-- R144, R145: 3XNN and 4XNN add 2 to pc when Vx equals, or differs from, NN, and change nothing else. -/
def Obligations.ImmediateSkips : Prop :=
  (∀ w : Word, w &&& 0xF000 = 0x3000 → decodeWord w = .ok (.seImm (xOf w) (nnOf w))) ∧
  (∀ w : Word, w &&& 0xF000 = 0x4000 → decodeWord w = .ok (.sneImm (xOf w) (nnOf w))) ∧
  ∀ (x : Nibble) (nn : Byte) (s : State),
    (∃ t, exec (.seImm x nn) s = .next t ∧ t.pc = (if s.getV x = nn then s.pc + 2 else s.pc) ∧
      Frame s t { pc := true }) ∧
    ∃ t, exec (.sneImm x nn) s = .next t ∧ t.pc = (if s.getV x = nn then s.pc else s.pc + 2) ∧
      Frame s t { pc := true }

/-- R146, R147: 5XYN and 9XYN, for every N, add 2 to pc when Vx equals, or differs from, Vy, and change nothing
else. -/
def Obligations.RegisterSkips : Prop :=
  (∀ w : Word, w &&& 0xF000 = 0x5000 → decodeWord w = .ok (.seReg (xOf w) (yOf w) (nOf w))) ∧
  (∀ w : Word, w &&& 0xF000 = 0x9000 → decodeWord w = .ok (.sneReg (xOf w) (yOf w) (nOf w))) ∧
  ∀ (x y n : Nibble) (s : State),
    (∃ t, exec (.seReg x y n) s = .next t ∧ t.pc = (if s.getV x = s.getV y then s.pc + 2 else s.pc) ∧
      Frame s t { pc := true }) ∧
    ∃ t, exec (.sneReg x y n) s = .next t ∧ t.pc = (if s.getV x = s.getV y then s.pc else s.pc + 2) ∧
      Frame s t { pc := true }

/-- BNNN sets pc to the unreduced sum V0 + NNN, at most 0x10FE, and the next fetch reads from the sum modulo 4096
(the spec's decision D2). -/
def Obligations.JumpV0AddsOffset : Prop :=
  (∀ w : Word, w &&& 0xF000 = 0xB000 → decodeWord w = .ok (.jpV0 (nnnOf w))) ∧
  ∀ (nnn : Addr12) (s : State), ∃ t, exec (.jpV0 nnn) s = .next t ∧
    t.pc.toNat = (s.getV 0).toNat + nnn.toNat ∧ t.pc.toNat ≤ 0x10FE ∧
    t.fetchBytes = [s.memRead (t.pc.toNat % 4096), s.memRead ((t.pc.toNat + 1) % 4096)] ∧
    Frame s t { pc := true }

/-! ## Register and immediate operations -/

/-- R160: 6XNN writes NN to Vx and changes nothing else. -/
def Obligations.LoadImmediateWritesVx : Prop :=
  (∀ w : Word, w &&& 0xF000 = 0x6000 → decodeWord w = .ok (.ldImm (xOf w) (nnOf w))) ∧
  ∀ (x : Nibble) (nn : Byte) (s : State), ∃ t, exec (.ldImm x nn) s = .next t ∧ t.getV x = nn ∧
    Frame s t { regs := fun r => r = x }

/-- 7XNN writes (Vx + NN) mod 256 to Vx under Q_ADD_IMM = standard, this hardware's value, and 255 less than a sum
above 255 under `reference`; no flag is written in either. The choice is the spec's decision D4 (log 4). -/
def Obligations.AddImmediateWritesVx : Prop :=
  (∀ w : Word, w &&& 0xF000 = 0x7000 → decodeWord w = .ok (.addImm (xOf w) (nnOf w))) ∧
  ∀ (x : Nibble) (nn : Byte) (s : State), ∃ t, exec (.addImm x nn) s = .next t ∧
    (s.cfg.addImm = .standard → (t.getV x).toNat = ((s.getV x).toNat + nn.toNat) % 256) ∧
    (s.cfg.addImm = .reference → (t.getV x).toNat =
      if 255 < (s.getV x).toNat + nn.toNat then (s.getV x).toNat + nn.toNat - 255
      else (s.getV x).toNat + nn.toNat) ∧
    Frame s t { regs := fun r => r = x }

/-- R162: ANNN writes NNN to I and changes nothing else. -/
def Obligations.LoadIndexWritesI : Prop :=
  (∀ w : Word, w &&& 0xF000 = 0xA000 → decodeWord w = .ok (.ldI (nnnOf w))) ∧
  ∀ (nnn : Addr12) (s : State), ∃ t, exec (.ldI nnn) s = .next t ∧ t.i.toNat = nnn.toNat ∧
    Frame s t { i := true }

/-- CXNN writes the AND of a random byte and NN to Vx, whatever the byte is, takes exactly one draw and changes
nothing else. The byte is a free value (the spec's decision D18, log 3): the first clause holds for every byte. -/
def Obligations.RandomMasksTheDraw : Prop :=
  (∀ w : Word, w &&& 0xF000 = 0xC000 → decodeWord w = .ok (.rnd (xOf w) (nnOf w))) ∧
  (∀ (r : Byte) (x : Nibble) (nn : Byte) (s : State), (rndWith r x nn s).getV x = r &&& nn ∧
    (rndWith r x nn s).draws = s.draws + 1 ∧
    Frame s (rndWith r x nn s) { regs := fun q => q = x, draws := true }) ∧
  ∀ (x : Nibble) (nn : Byte) (s : State), ∃ t r, exec (.rnd x nn) s = .next t ∧ t = rndWith r x nn s ∧
    t.getV x &&& ~~~nn = 0

/-! ## Arithmetic and logic -/

/-- R172, R173, R174, R175: 8XY0 to 8XY3 write Vy, or the OR, AND or XOR of Vx and Vy, to Vx and change nothing
else, VF included. -/
def Obligations.CopyAndLogicWriteVx : Prop :=
  (∀ w : Word, w &&& 0xF00F = 0x8000 → decodeWord w = .ok (.ldReg (xOf w) (yOf w))) ∧
  (∀ w : Word, w &&& 0xF00F = 0x8001 → decodeWord w = .ok (.orReg (xOf w) (yOf w))) ∧
  (∀ w : Word, w &&& 0xF00F = 0x8002 → decodeWord w = .ok (.andReg (xOf w) (yOf w))) ∧
  (∀ w : Word, w &&& 0xF00F = 0x8003 → decodeWord w = .ok (.xorReg (xOf w) (yOf w))) ∧
  ∀ (x y : Nibble) (s : State),
    (∃ t, exec (.ldReg x y) s = .next t ∧ t.getV x = s.getV y ∧ Frame s t { regs := fun r => r = x }) ∧
    (∃ t, exec (.orReg x y) s = .next t ∧ t.getV x = s.getV x ||| s.getV y ∧
      Frame s t { regs := fun r => r = x }) ∧
    (∃ t, exec (.andReg x y) s = .next t ∧ t.getV x = s.getV x &&& s.getV y ∧
      Frame s t { regs := fun r => r = x }) ∧
    ∃ t, exec (.xorReg x y) s = .next t ∧ t.getV x = s.getV x ^^^ s.getV y ∧
      Frame s t { regs := fun r => r = x }

/-- R176: 8XY4 writes the sum modulo 256 to Vx and the carry to VF, last; with X = 0xF only the carry is left. -/
def Obligations.AddSetsCarry : Prop :=
  (∀ w : Word, w &&& 0xF00F = 0x8004 → decodeWord w = .ok (.addReg (xOf w) (yOf w))) ∧
  ∀ (x y : Nibble) (s : State), ∃ t, exec (.addReg x y) s = .next t ∧
    (x ≠ 15 → (t.getV x).toNat = ((s.getV x).toNat + (s.getV y).toNat) % 256) ∧
    t.getV 15 = (if (s.getV x).toNat + (s.getV y).toNat > 255 then 1 else 0) ∧
    Frame s t { regs := fun r => r = x ∨ r = 15 }

/-- R177: 8XY5 writes the difference modulo 256 to Vx and 1 to VF when there is no borrow, else 0, last. -/
def Obligations.SubSetsNoBorrow : Prop :=
  (∀ w : Word, w &&& 0xF00F = 0x8005 → decodeWord w = .ok (.sub (xOf w) (yOf w))) ∧
  ∀ (x y : Nibble) (s : State), ∃ t, exec (.sub x y) s = .next t ∧
    (x ≠ 15 → ((t.getV x).toNat : Int) = (((s.getV x).toNat : Int) - (s.getV y).toNat) % 256) ∧
    t.getV 15 = (if (s.getV x).toNat ≥ (s.getV y).toNat then 1 else 0) ∧
    Frame s t { regs := fun r => r = x ∨ r = 15 }

/-- R178: 8XY6, for every Y, writes Vx shifted right by one to Vx and the bit shifted out to VF, last. -/
def Obligations.ShiftRightSetsLowBit : Prop :=
  (∀ w : Word, w &&& 0xF00F = 0x8006 → decodeWord w = .ok (.shr (xOf w) (yOf w))) ∧
  ∀ (x y : Nibble) (s : State), ∃ t, exec (.shr x y) s = .next t ∧
    (x ≠ 15 → (t.getV x).toNat = (s.getV x).toNat / 2) ∧
    (t.getV 15).toNat = (s.getV x).toNat % 2 ∧
    Frame s t { regs := fun r => r = x ∨ r = 15 }

/-- 8XY7 writes Vy - Vx modulo 256 to Vx and 1 to VF when there is no borrow, else 0, last, whichever value
Q_SUBN_FLAG has. The parameter's default is the spec's decision D5 (log 4). -/
def Obligations.ReverseSubSetsNoBorrow : Prop :=
  (∀ w : Word, w &&& 0xF00F = 0x8007 → decodeWord w = .ok (.subn (xOf w) (yOf w))) ∧
  ∀ (x y : Nibble) (s : State), ∃ t, exec (.subn x y) s = .next t ∧
    (x ≠ 15 → ((t.getV x).toNat : Int) = (((s.getV y).toNat : Int) - (s.getV x).toNat) % 256) ∧
    t.getV 15 = (if (s.getV y).toNat ≥ (s.getV x).toNat then 1 else 0) ∧
    Frame s t { regs := fun r => r = x ∨ r = 15 }

/-- 8XYE, for every Y, writes Vx shifted left by one to Vx and, last, to VF the bit shifted out, or under
Q_SHL_MASK = 0xA0 whether bit 7 or bit 5 was set. The default is the spec's decision D6 (log 4). -/
def Obligations.ShiftLeftSetsHighBit : Prop :=
  (∀ w : Word, w &&& 0xF00F = 0x800E → decodeWord w = .ok (.shl (xOf w) (yOf w))) ∧
  ∀ (x y : Nibble) (s : State), ∃ t, exec (.shl x y) s = .next t ∧
    (x ≠ 15 → (t.getV x).toNat = 2 * (s.getV x).toNat % 256) ∧
    (s.cfg.shlMask = .mask80 → (t.getV 15).toNat = (s.getV x).toNat / 128) ∧
    (s.cfg.shlMask = .maskA0 → t.getV 15 =
      if (s.getV x).getLsbD 7 = true ∨ (s.getV x).getLsbD 5 = true then 1 else 0) ∧
    Frame s t { regs := fun r => r = x ∨ r = 15 }

/-- The two values of Q_SUBN_FLAG give the same flag for every input, so two states that differ in that parameter
alone are left differing in it alone (an inference the spec marks as its own, R183). -/
def Obligations.SubnFlagVariantsAgree : Prop :=
  ∀ (x y : Nibble) (s t : State) (q : SubnFlagRule), exec (.subn x y) s = .next t →
    exec (.subn x y) { s with cfg := { s.cfg with subnFlag := q } } =
      .next { t with cfg := { t.cfg with subnFlag := q } }

/-! ## Display -/

/-- 00E0, for every X, turns every pixel off, unmarks every pixel, sets `redraw` and changes nothing else. The
effect on `pend` and `redraw` is the spec's decision D12. -/
def Obligations.ClearBlanksDisplay : Prop :=
  (∀ w : Word, w &&& 0xF0FF = 0x00E0 → decodeWord w = .ok (.cls (xOf w))) ∧
  ∀ (x : Nibble) (s : State), ∃ t, exec (.cls x) s = .next t ∧
    (∀ c r, t.fb.px c r = false ∧ t.pend.px c r = false) ∧ t.redraw = true ∧ Frame s t { display := true }

/-- What R193, R194 and R195 say of DXYN; that Vx and Vy are read before VF is reset, so that X or Y = 0xF uses the
old VF as a coordinate, is the spec's decision D10. DXYN first turns off and unmarks every pixel marked in `pend`;
then the sprite bit of row `row` and index `bit` meets the pixel at column (vx + bit) mod 64 and row (vy + row) mod
32, whose new state is the XOR: a new state on is set at once, a new state off is deferred to `pend`; pixels no bit
goes to are left as flushed. VF ends 1 exactly when some pixel went from on to off, else 0. `redraw` ends true
exactly when it was true, or the flush turned off a pixel that was on, or some pixel's state changed. Nothing else
changes. -/
def Obligations.DrawFlushesThenXorsSprite : Prop :=
  (∀ w : Word, w &&& 0xF000 = 0xD000 → decodeWord w = .ok (.drw (xOf w) (yOf w) (nOf w))) ∧
  ∀ (x y n : Nibble) (s : State), ∃ t, exec (.drw x y n) s = .next t ∧
    (∀ c r, ¬ s.boxed x y n c r → t.fb.px c r = (s.fb.px c r && !s.pend.px c r) ∧ t.pend.px c r = false) ∧
    (∀ c r row bit, s.lands x y n row bit c r →
      t.fb.px c r = (s.logical c r || (s.logical c r ^^ (s.memRead (s.i.toNat + row)).getLsbD (7 - bit))) ∧
      t.pend.px c r = !(s.logical c r ^^ (s.memRead (s.i.toNat + row)).getLsbD (7 - bit))) ∧
    (t.getV 15 = 1 ↔ ∃ c r, s.logical c r = true ∧ s.covered x y n c r) ∧
    (t.getV 15 = 0 ∨ t.getV 15 = 1) ∧
    (t.redraw = true ↔ s.redraw = true ∨ (∃ c r, s.pend.px c r = true ∧ s.fb.px c r = true) ∨
      ∃ c r, s.covered x y n c r) ∧
    Frame s t { regs := fun r => r = 15, display := true }

/-- On the logical display `fb and not pend`, DXYN is the XOR with the sprite's covered pixels and VF says whether
the two met; after 00E0 the logical display is blank (an inference the spec marks as its own, R198). -/
def Obligations.DrawXorsLogicalDisplay : Prop :=
  (∀ (x y n : Nibble) (s t : State), exec (.drw x y n) s = .next t →
    (∀ c r, (t.logical c r = true ↔ ¬ (s.logical c r = true ↔ s.covered x y n c r))) ∧
    (t.getV 15 = 1 ↔ ∃ c r, s.logical c r = true ∧ s.covered x y n c r)) ∧
  ∀ (x : Nibble) (s t : State), exec (.cls x) s = .next t → ∀ c r, t.logical c r = false

/-- No pixel is visited twice by one DXYN, so the order of its pixel updates cannot change the result (an inference
the spec marks as its own, R197). -/
def Obligations.DrawOrderCannotMatter : Prop :=
  ∀ (x y n : Nibble) (s : State),
    ((s.sprite x y n).map fun d => (d.col, d.row)).Nodup ∧
    ∀ dots : List Dot, dots.Perm (s.sprite x y n) → ∀ k : Canvas, k.draw dots = k.draw (s.sprite x y n)

/-- The rule N = 0: DXY0 flushes, sets VF to 0 and draws nothing (the spec's decision D11). -/
def Obligations.DrawWithNoRowsOnlyFlushes : Prop :=
  ∀ (x y : Nibble) (s : State), ∃ t, exec (.drw x y 0) s = .next t ∧ t.getV 15 = 0 ∧
    (∀ c r, t.fb.px c r = s.logical c r ∧ t.pend.px c r = false) ∧
    (t.redraw = true ↔ s.redraw = true ∨ ∃ c r, s.pend.px c r = true ∧ s.fb.px c r = true) ∧
    Frame s t { regs := fun r => r = 15, display := true }

/-! ## Keypad -/

/-- R212, R213: EX9E adds 2 to pc when the value of Vx is the code of a key that is down, EXA1 when it is not; a
value above 15 is no key. Nothing else changes. -/
def Obligations.KeySkips : Prop :=
  (∀ w : Word, w &&& 0xF0FF = 0xE09E → decodeWord w = .ok (.skp (xOf w))) ∧
  (∀ w : Word, w &&& 0xF0FF = 0xE0A1 → decodeWord w = .ok (.sknp (xOf w))) ∧
  ∀ (x : Nibble) (s : State),
    (∃ t, exec (.skp x) s = .next t ∧ Frame s t { pc := true } ∧
      ((∃ k : Nibble, (s.getV x).toNat = k.val ∧ s.keys[k.val] = true) → t.pc = s.pc + 2) ∧
      ((∀ k : Nibble, (s.getV x).toNat = k.val → s.keys[k.val] = false) → t.pc = s.pc)) ∧
    ∃ t, exec (.sknp x) s = .next t ∧ Frame s t { pc := true } ∧
      ((∃ k : Nibble, (s.getV x).toNat = k.val ∧ s.keys[k.val] = true) → t.pc = s.pc) ∧
      ((∀ k : Nibble, (s.getV x).toNat = k.val → s.keys[k.val] = false) → t.pc = s.pc + 2)

/-- FX0A with no key down takes 2 off pc and changes nothing else; with a key down it writes the code of a pressed
key to Vx and changes nothing else, and under KEY_PICK = lowest, this hardware's value, that code is the smallest
one. KEY_PICK's default is the spec's decision D16 (log 5). -/
def Obligations.KeyWaitRefetchesOrPicks : Prop :=
  (∀ w : Word, w &&& 0xF0FF = 0xF00A → decodeWord w = .ok (.ldK (xOf w))) ∧
  ∀ (x : Nibble) (s : State),
    ((∀ k : Nibble, s.keys[k.val] = false) → ∃ t, exec (.ldK x) s = .next t ∧ t.pc = s.pc - 2 ∧
      Frame s t { pc := true }) ∧
    ((∃ k : Nibble, s.keys[k.val] = true) → ∃ t, ∃ k : Nibble, exec (.ldK x) s = .next t ∧
      s.keys[k.val] = true ∧ (t.getV x).toNat = k.val ∧
      (s.cfg.keyPick = .lowest → ∀ j : Nibble, s.keys[j.val] = true → k ≤ j) ∧
      Frame s t { regs := fun r => r = x })

/-- KEY_DOWN and KEY_UP put one code of 0 to 15 into the key set or take it out, and change nothing else; a code
above 15 is reported, recorded and changes no key (the spec's decision D17). -/
def Obligations.KeyCommandsChangeOneKey : Prop :=
  ∀ (k : Byte) (s : State),
    (∀ h : k.toNat < 16,
      (command (.keyDown k) s).outcome = .ok ∧ (command (.keyUp k) s).outcome = .ok ∧
      (command (.keyDown k) s).state.keys[k.toNat] = true ∧ (command (.keyUp k) s).state.keys[k.toNat] = false ∧
      (∀ (j : Nat) (hj : j < 16), j ≠ k.toNat → (command (.keyDown k) s).state.keys[j] = s.keys[j] ∧
        (command (.keyUp k) s).state.keys[j] = s.keys[j]) ∧
      { (command (.keyDown k) s).state with keys := s.keys } = s ∧
      { (command (.keyUp k) s).state with keys := s.keys } = s) ∧
    (15 < k.toNat → ∀ c : Command, c = .keyDown k ∨ c = .keyUp k →
      (command c s).outcome = .error (.keyCodeOutOfRange k) ∧
      (command c s).state = { s with faults := s.faults ++ [.keyCodeOutOfRange k] })

/-! ## Miscellaneous group -/

/-- R226, R227: FX07 writes DT to Vx, FX15 writes Vx to DT; each changes nothing else. -/
def Obligations.DelayTimerMoves : Prop :=
  (∀ w : Word, w &&& 0xF0FF = 0xF007 → decodeWord w = .ok (.ldVxDt (xOf w))) ∧
  (∀ w : Word, w &&& 0xF0FF = 0xF015 → decodeWord w = .ok (.ldDtVx (xOf w))) ∧
  ∀ (x : Nibble) (s : State),
    (∃ t, exec (.ldVxDt x) s = .next t ∧ t.getV x = s.dt ∧ Frame s t { regs := fun r => r = x }) ∧
    ∃ t, exec (.ldDtVx x) s = .next t ∧ t.dt = s.getV x ∧ Frame s t { dt := true }

/-- FX18 emits one beep event with the whole value of Vx, zero included, and changes no state. That a zero beeps is
the spec's decision D23; the list of emitted events is the model's own field (log 1). -/
def Obligations.BeepEmitsVx : Prop :=
  (∀ w : Word, w &&& 0xF0FF = 0xF018 → decodeWord w = .ok (.ldStVx (xOf w))) ∧
  ∀ (x : Nibble) (s : State), ∃ t, exec (.ldStVx x) s = .next t ∧ t.out = s.out ++ [.beep (s.getV x)] ∧
    Frame s t { out := true }

/-- R229: FX1E adds Vx to I modulo 65536 and changes nothing else, VF included. -/
def Obligations.AddIndexWraps : Prop :=
  (∀ w : Word, w &&& 0xF0FF = 0xF01E → decodeWord w = .ok (.addIVx (xOf w))) ∧
  ∀ (x : Nibble) (s : State), ∃ t, exec (.addIVx x) s = .next t ∧
    t.i.toNat = (s.i.toNat + (s.getV x).toNat) % 65536 ∧ Frame s t { i := true }

/-- R230: FX29 sets I to five times the whole byte Vx, at most 1275, and changes nothing else. -/
def Obligations.FontIndexIsFiveTimesVx : Prop :=
  (∀ w : Word, w &&& 0xF0FF = 0xF029 → decodeWord w = .ok (.ldFVx (xOf w))) ∧
  ∀ (x : Nibble) (s : State), ∃ t, exec (.ldFVx x) s = .next t ∧
    t.i.toNat = 5 * (s.getV x).toNat ∧ t.i.toNat ≤ 1275 ∧ Frame s t { i := true }

/-- R231: FX33 stores the hundreds, tens and ones of Vx at I, I + 1 and I + 2, addresses modulo 4096; each is 0 to 9
and together they are Vx. I and every other byte are unchanged. -/
def Obligations.BcdStoresThreeDigits : Prop :=
  (∀ w : Word, w &&& 0xF0FF = 0xF033 → decodeWord w = .ok (.ldBVx (xOf w))) ∧
  ∀ (x : Nibble) (s : State), ∃ t, exec (.ldBVx x) s = .next t ∧
    (t.memRead s.i.toNat).toNat = (s.getV x).toNat / 100 ∧
    (t.memRead (s.i.toNat + 1)).toNat = (s.getV x).toNat / 10 % 10 ∧
    (t.memRead (s.i.toNat + 2)).toNat = (s.getV x).toNat % 10 ∧
    (t.memRead s.i.toNat).toNat ≤ 9 ∧
    100 * (t.memRead s.i.toNat).toNat + 10 * (t.memRead (s.i.toNat + 1)).toNat +
      (t.memRead (s.i.toNat + 2)).toNat = (s.getV x).toNat ∧
    Frame s t { mem := fun a => ∃ k < 3, a = reduceAddr (s.i.toNat + k) }

/-- FX55 under Q_DUMP_ADDR = indexed, this hardware's value, stores V0 to Vx at I to I + X; under `reference` it
leaves Vx at I + 1. The stored addresses are those `dumpAddr` gives; every other byte, and I, are unchanged. The
default and the unchanged I are the spec's decisions D7 and D8 (log 4). -/
def Obligations.DumpStoresRegisters : Prop :=
  (∀ w : Word, w &&& 0xF0FF = 0xF055 → decodeWord w = .ok (.ldMemVx (xOf w))) ∧
  ∀ (x : Nibble) (s : State), ∃ t, exec (.ldMemVx x) s = .next t ∧
    (s.cfg.dumpAddr = .indexed → ∀ k : Nibble, k ≤ x → t.memRead (s.i.toNat + k.val) = s.getV k) ∧
    (s.cfg.dumpAddr = .reference → t.memRead (s.i.toNat + 1) = s.getV x) ∧
    Frame s t { mem := fun a => ∃ k ≤ x.val, a = reduceAddr (s.dumpAddr k) }

/-- FX65 loads V0 to Vx from I to I + X, addresses modulo 4096, and changes nothing else. That I stays is the spec's
decision D8. -/
def Obligations.LoadFillsRegisters : Prop :=
  (∀ w : Word, w &&& 0xF0FF = 0xF065 → decodeWord w = .ok (.ldVxMem (xOf w))) ∧
  ∀ (x : Nibble) (s : State), ∃ t, exec (.ldVxMem x) s = .next t ∧
    (∀ k : Nibble, k ≤ x → t.getV k = s.memRead ((s.i.toNat + k.val) % 4096)) ∧
    Frame s t { regs := fun r => r ≤ x }

/-- FX55 and later FX65 with the same X and the same I, with those bytes of memory untouched between them, restore
V0 to Vx under Q_DUMP_ADDR = indexed (an inference the spec marks as its own, R234). -/
def Obligations.DumpThenLoadRestores : Prop :=
  ∀ (x : Nibble) (s t u : State), s.cfg.dumpAddr = .indexed → exec (.ldMemVx x) s = .next t →
    u.i = t.i → (∀ k ≤ x.val, u.memRead (s.i.toNat + k) = t.memRead (s.i.toNat + k)) →
    ∃ z, exec (.ldVxMem x) u = .next z ∧ ∀ k : Nibble, k ≤ x → z.getV k = s.getV k

/-- Self-modifying code: when FX55 stores at the address the next instruction is fetched from, the next STEP fetches
the word it stored (an inference the spec marks as its own, R75 and R292). -/
def Obligations.FetchSeesStoredInstruction : Prop :=
  ∀ (x : Nibble) (s t : State), 1 ≤ x.val → s.cfg.dumpAddr = .indexed →
    s.i.toNat % 4096 = s.pc.toNat % 4096 → exec (.ldMemVx x) s = .next t →
    t.fetchWord = s.getV 0 ++ s.getV 1

/-! ## Whole-machine rules -/

/-- Every instruction completes on every state, and only CALL on a full stack and RET on an empty one record an
error (an inference the spec marks as its own, R126). -/
def Obligations.OnlyCallAndReturnRaise : Prop :=
  ∀ (i : Instr) (s : State), ∃ t, exec i s = .next t ∧
    (t.faults = s.faults ∨
      ((∃ nnn, i = .call nnn) ∧ s.sp.val = 16 ∧
        t = { s with faults := s.faults ++ [.stackOverflow (s.pc - 2) (encodeWord i)] }) ∨
      ((∃ x, i = .ret x) ∧ s.sp.val = 0 ∧
        t = { s with faults := s.faults ++ [.stackUnderflow (s.pc - 2) (encodeWord i)] }))

/-- An instruction writes no general register but those that R33 and R34 name: its destination, the registers FX65
loads, and VF for the six flag-writing instructions. -/
def Obligations.OnlyNamedRegistersAreWritten : Prop :=
  ∀ (i : Instr) (s t : State) (r : Nibble), exec i s = .next t → ¬ mayWriteReg r i → t.getV r = s.getV r

/-- Each other piece of state is written by the instructions its rule names and by no other: I (R35), pc after the
fetch (R37), the call stack (R39, R40), DT (R41), the display (R43 to R45), memory (R60); and no instruction writes
the keys, `booted` or the parameters. -/
def Obligations.OnlyNamedInstructionsWriteState : Prop :=
  ∀ (i : Instr) (s t : State), exec i s = .next t →
    (i.row.mnemonic ∈ ["LD_I", "ADD_I_VX", "LD_F_VX"] ∨ t.i = s.i) ∧
    (i.row.mnemonic ∈ ["SE_IMM", "SNE_IMM", "SE_REG", "SNE_REG", "SKP", "SKNP", "JP", "CALL", "RET", "JP_V0", "LD_K"] ∨
      t.pc = s.pc) ∧
    (i.row.mnemonic = "CALL" ∨ t.stack = s.stack) ∧ (i.row.mnemonic ∈ ["CALL", "RET"] ∨ t.sp = s.sp) ∧
    (i.row.mnemonic = "LD_DT_VX" ∨ t.dt = s.dt) ∧
    (i.row.mnemonic ∈ ["CLS", "DRW"] ∨ (t.fb = s.fb ∧ t.pend = s.pend ∧ t.redraw = s.redraw)) ∧
    (s.redraw = true → t.redraw = true) ∧
    (i.row.mnemonic ∈ ["LD_B_VX", "LD_MEM_VX"] ∨ t.mem = s.mem) ∧
    t.keys = s.keys ∧ t.booted = s.booted ∧ t.cfg = s.cfg

/-- The events of a command: TICK emits one `present` of the framebuffer when `redraw` was true and nothing
otherwise, a STEP emits the `beep` of an FX18 and nothing otherwise, and no other command emits anything. The list
of emitted events keeps every earlier one (log 1). -/
def Obligations.EventsComeFromTickAndBeep : Prop :=
  ∀ (c : Command) (s : State),
    (command c s).state.out = s.out ++ (command c s).events ∧
    (c = .tick → s.booted = true →
      (command c s).events = if s.redraw then [.present s.fb] else []) ∧
    (c = .step → s.booted = true → ∀ x, decodeWord s.fetchWord = .ok (.ldStVx x) →
      (command c s).events = [.beep (s.getV x)]) ∧
    (c = .step → (∀ x, decodeWord s.fetchWord ≠ .ok (.ldStVx x)) → (command c s).events = []) ∧
    (c ≠ .tick → c ≠ .step → (command c s).events = [])

/-- The fault record only grows, by at most one error a command, and the error it records is the command's outcome
(R256 and the spec's decision D15; R257, an inference of the spec's own; log 2). -/
def Obligations.FaultRecordGrowsByTheOutcome : Prop :=
  (∀ (c : Command) (s : State),
    ((command c s).state.faults = s.faults ∧
      ((command c s).outcome = .ok ∨ (command c s).outcome = .refused)) ∨
    ∃ e, (command c s).state.faults = s.faults ++ [e] ∧ (command c s).outcome = .error e) ∧
  ∀ (cs : List Command) (s : State), s.faulted = true → (runCommands cs s).faulted = true

/-- R260: TICK takes 1 off DT when it is not 0; it changes neither pc nor the registers, memory, I, the stack,
`pend` or the keys; its outcome is Ok, or Refused before boot. The flush that follows clears `redraw` and leaves
the framebuffer. -/
def Obligations.TickDecrementsTimer : Prop :=
  ∀ s : State,
    (s.booted = true →
      (command .tick s).outcome = .ok ∧
      (command .tick s).state.dt.toNat = (if s.dt.toNat ≠ 0 then s.dt.toNat - 1 else 0) ∧
      (command .tick s).state.redraw = false ∧ (command .tick s).state.fb = s.fb ∧
      (command .tick s).state.pend = s.pend ∧
      Frame s (command .tick s).state { dt := true, display := true, out := true }) ∧
    (s.booted = false → (command .tick s).outcome = .refused ∧ (command .tick s).state = s)

/-- After k TICKs the delay timer is k lower, stopping at 0, so DT = n reads 0 after n TICKs and not before (an
inference the spec marks as its own, R290). -/
def Obligations.TimerReachesZeroAfterItsTicks : Prop :=
  ∀ (k : Nat) (s : State), s.booted = true →
    (runCommands (List.replicate k .tick) s).dt.toNat = s.dt.toNat - k ∧
    ((runCommands (List.replicate k .tick) s).dt = 0 ↔ s.dt.toNat ≤ k)

/-- RESET installs every value of R50's table, leaves the keys and the fault record, emits nothing, and twice is as
once. The values of DT, `pend`, `redraw` and the kept keys are the spec's decision D19 (log 7). -/
def Obligations.ResetInstallsItsValues : Prop :=
  ∀ s : State, ∃ t, command .reset s = { outcome := .ok, state := t, events := [] } ∧
    (∀ (a : Nat) (h : a < 80), t.memRead a = s.cfg.font[a]) ∧
    (∀ a, 80 ≤ a → a < 4096 → t.memRead a = 0) ∧
    (∀ r, t.getV r = 0) ∧ t.i = 0 ∧ t.pc = 0x200 ∧ (∀ (k : Nat) (h : k < 16), t.stack[k] = 0) ∧ t.sp = 0 ∧
    t.dt = 0 ∧ (∀ c r, t.fb.px c r = false ∧ t.pend.px c r = false) ∧ t.redraw = false ∧
    t.keys = s.keys ∧ t.booted = true ∧ t.faults = s.faults ∧ t.cfg = s.cfg ∧
    (command .reset t).state = t

/-- A LOAD that fits resets the CORE and copies the program to 0x200 and up; every byte it does not write reads as
after RESET, and so does every other piece of state; and LOADing again is as once. The order is the spec's
decision D21. -/
def Obligations.LoadResetsThenCopies : Prop :=
  ∀ (bs : List Byte) (s : State), bs.length ≤ 3584 →
    ∃ t, command (.load bs) s = { outcome := .ok, state := t, events := [] } ∧
      (∀ (k : Nat) (h : k < bs.length), t.memRead (0x200 + k) = bs[k]) ∧
      (∀ a < 4096, (a < 0x200 ∨ 0x200 + bs.length ≤ a) → t.memRead a = (command .reset s).state.memRead a) ∧
      { t with mem := (command .reset s).state.mem } = (command .reset s).state ∧
      (command (.load bs) t).state = t

/-- A LOAD of more than 3584 bytes reports ProgramTooLarge(len) and changes no state but the fault record, and one of
exactly 3584 bytes succeeds (R282). That the error is appended to `faults` is log 2, read from R251, R255, R256 and the
spec's decision D15; that it holds the byte count is the spec's decision D14. -/
def Obligations.TooLargeLoadChangesNothing : Prop :=
  ∀ (bs : List Byte) (s : State),
    (3584 < bs.length → command (.load bs) s =
      { outcome := .error (.programTooLarge bs.length),
        state := { s with faults := s.faults ++ [.programTooLarge bs.length] }, events := [] }) ∧
    (bs.length = 3584 → (command (.load bs) s).outcome = .ok)

/-- R284: after LOAD, execution starts at 0x200: the first STEP fetches the first two loaded bytes, big-endian, and
runs the instruction they are with pc at 0x202; after RESET alone it fetches the word 0x0000. -/
def Obligations.FirstStepRunsTheLoadedWord : Prop :=
  (∀ (hi lo : Byte) (bs : List Byte) (s : State) (i : Instr), bs.length + 2 ≤ 3584 →
    decodeWord (hi ++ lo) = .ok i → ∃ t, (command (.load (hi :: lo :: bs)) s).state = t ∧ t.pc = 0x200 ∧
      t.fetchWord = hi ++ lo ∧ step t = exec i (t.setPc 0x202)) ∧
  ∀ s : State, (command .reset s).state.pc = 0x200 ∧ (command .reset s).state.fetchWord = 0x0000

/-- Every STEP keeps memory in its canonical form, from every state that has it. The form is the model's (log 10): the
4096 addresses of R60, each listed at most once and only when its byte differs from its RESET value. -/
def Obligations.StepKeepsInvariant : Prop :=
  ∀ s t : State, s.Inv → step s = .next t → t.Inv

/-- Memory has its canonical form (log 10) right after reset. -/
def Obligations.ResetMeetsInvariant : Prop :=
  State.reset.Inv ∧ ∀ s : State, (command .reset s).state.Inv

/-- Every command sequence keeps memory in its canonical form (log 10), from every state that has it, and from every
power-on state on once a RESET has been performed. -/
def Obligations.CommandsKeepInvariant : Prop :=
  (∀ s t : State, s.Inv → Reaches s t → t.Inv) ∧
  ∀ (any : State) (cs : List Command), (runCommands (.reset :: cs) any.powerOn).Inv
end

