-- ==== Sys2Proof/Laws/Decode.lean ====
section
/-! SUPPORT. The laws of the decoder's fields and of the packed formats: each field as a number, each field of a packed
word, and each word packed from its own fields. -/

namespace Sys2Proof

variable (w : Word)

/-! ## Fields as numbers -/

theorem setOf_val : (setOf w).val = w.toNat / 4096 := by
  have := w.isLt
  simp only [setOf, nibbleAt, BitVec.val_toFin, BitVec.extractLsb'_toNat, Nat.shiftRight_eq_div_pow]
  omega

theorem xOf_val : (xOf w).val = w.toNat / 256 % 16 := by
  simp only [xOf, nibbleAt, BitVec.val_toFin, BitVec.extractLsb'_toNat, Nat.shiftRight_eq_div_pow]

theorem yOf_val : (yOf w).val = w.toNat / 16 % 16 := by
  simp only [yOf, nibbleAt, BitVec.val_toFin, BitVec.extractLsb'_toNat, Nat.shiftRight_eq_div_pow]

theorem nOf_val : (nOf w).val = w.toNat % 16 := by
  simp [nOf, nibbleAt]

theorem nnOf_toNat : (nnOf w).toNat = w.toNat % 256 := by
  simp [nnOf, BitVec.extractLsb'_toNat]

theorem nnnOf_toNat : (nnnOf w).toNat = w.toNat % 4096 := by
  simp [nnnOf, BitVec.extractLsb'_toNat]

/-! ## Packed words as numbers -/

theorem bits4_toNat (n : Nibble) : (bits4 n).toNat = n.val := rfl

theorem append_toNat {m k : Nat} (a : BitVec m) (b : BitVec k) : (a ++ b).toNat = a.toNat * 2 ^ k + b.toNat := by
  rw [BitVec.toNat_append, Nat.shiftLeft_eq, ← Nat.shiftLeft_eq, Nat.shiftLeft_add_eq_or_of_lt b.isLt]

theorem packXYN_toNat (set x y n : Nibble) :
    (packXYN set x y n).toNat = 4096 * set.val + 256 * x.val + 16 * y.val + n.val := by
  unfold packXYN
  rw [append_toNat, append_toNat, append_toNat]
  simp only [bits4_toNat]
  omega

theorem packXNN_toNat (set x : Nibble) (nn : Byte) :
    (packXNN set x nn).toNat = 4096 * set.val + 256 * x.val + nn.toNat := by
  unfold packXNN
  rw [append_toNat, append_toNat]
  simp only [bits4_toNat]
  omega

theorem packNNN_toNat (set : Nibble) (nnn : Addr12) : (packNNN set nnn).toNat = 4096 * set.val + nnn.toNat := by
  unfold packNNN
  rw [append_toNat]
  simp only [bits4_toNat]
  omega

/-! ## The fields of a packed word -/

@[simp] theorem setOf_packXYN (set x y n : Nibble) : setOf (packXYN set x y n) = set := by
  apply Fin.ext; rw [setOf_val, packXYN_toNat]; omega
@[simp] theorem xOf_packXYN (set x y n : Nibble) : xOf (packXYN set x y n) = x := by
  apply Fin.ext; rw [xOf_val, packXYN_toNat]; omega
@[simp] theorem yOf_packXYN (set x y n : Nibble) : yOf (packXYN set x y n) = y := by
  apply Fin.ext; rw [yOf_val, packXYN_toNat]; omega
@[simp] theorem nOf_packXYN (set x y n : Nibble) : nOf (packXYN set x y n) = n := by
  apply Fin.ext; rw [nOf_val, packXYN_toNat]; omega

@[simp] theorem setOf_packXNN (set x : Nibble) (nn : Byte) : setOf (packXNN set x nn) = set := by
  have := nn.isLt; apply Fin.ext; rw [setOf_val, packXNN_toNat]; omega
@[simp] theorem xOf_packXNN (set x : Nibble) (nn : Byte) : xOf (packXNN set x nn) = x := by
  have := nn.isLt; apply Fin.ext; rw [xOf_val, packXNN_toNat]; omega
@[simp] theorem nnOf_packXNN (set x : Nibble) (nn : Byte) : nnOf (packXNN set x nn) = nn := by
  have := nn.isLt; apply BitVec.eq_of_toNat_eq; rw [nnOf_toNat, packXNN_toNat]; omega

@[simp] theorem setOf_packNNN (set : Nibble) (nnn : Addr12) : setOf (packNNN set nnn) = set := by
  have := nnn.isLt; apply Fin.ext; rw [setOf_val, packNNN_toNat]; omega
@[simp] theorem nnnOf_packNNN (set : Nibble) (nnn : Addr12) : nnnOf (packNNN set nnn) = nnn := by
  have := nnn.isLt; apply BitVec.eq_of_toNat_eq; rw [nnnOf_toNat, packNNN_toNat]; omega

/-! ## A word from its fields -/

theorem packXYN_fields : packXYN (setOf w) (xOf w) (yOf w) (nOf w) = w := by
  have := w.isLt
  apply BitVec.eq_of_toNat_eq; rw [packXYN_toNat, setOf_val, xOf_val, yOf_val, nOf_val]; omega

theorem packXNN_fields : packXNN (setOf w) (xOf w) (nnOf w) = w := by
  have := w.isLt
  apply BitVec.eq_of_toNat_eq; rw [packXNN_toNat, setOf_val, xOf_val, nnOf_toNat]; omega

theorem packNNN_fields : packNNN (setOf w) (nnnOf w) = w := by
  have := w.isLt
  apply BitVec.eq_of_toNat_eq; rw [packNNN_toNat, setOf_val, nnnOf_toNat]; omega

/-! ## Masks as fields -/

theorem bits4_and_15 (n : Nibble) : bits4 n &&& bits4 15 = bits4 n := by revert n; decide

theorem bits4_and_0 (n : Nibble) : bits4 n &&& bits4 0 = bits4 0 := by revert n; decide

/-- A mask of whole nibbles acts nibble by nibble. -/
theorem packXYN_and (s x y n s' x' y' n' : Nibble) : packXYN s x y n &&& packXYN s' x' y' n' =
    (bits4 s &&& bits4 s') ++ (bits4 x &&& bits4 x') ++ (bits4 y &&& bits4 y') ++ (bits4 n &&& bits4 n') := by
  refine Eq.trans (BitVec.and_append (x₁ := bits4 s ++ bits4 x ++ bits4 y)) ?_
  rw [BitVec.and_append, BitVec.and_append]

theorem packXNN_and (s x s' x' : Nibble) (b b' : Byte) : packXNN s x b &&& packXNN s' x' b' =
    (bits4 s &&& bits4 s') ++ (bits4 x &&& bits4 x') ++ (b &&& b') := by
  refine Eq.trans (BitVec.and_append (x₁ := bits4 s ++ bits4 x)) ?_
  rw [BitVec.and_append]

theorem and_F000 : w &&& 0xF000 = packXYN (setOf w) 0 0 0 := by
  conv_lhs => rw [← packXYN_fields w, show (0xF000 : Word) = packXYN 15 0 0 0 from rfl]
  rw [packXYN_and]
  simp only [bits4_and_15, bits4_and_0]
  rfl

theorem and_F00F : w &&& 0xF00F = packXYN (setOf w) 0 0 (nOf w) := by
  conv_lhs => rw [← packXYN_fields w, show (0xF00F : Word) = packXYN 15 0 0 15 from rfl]
  rw [packXYN_and]
  simp only [bits4_and_15, bits4_and_0]
  rfl

theorem and_F0FF : w &&& 0xF0FF = packXNN (setOf w) 0 (nnOf w) := by
  conv_lhs => rw [← packXNN_fields w, show (0xF0FF : Word) = packXNN 15 0 (BitVec.allOnes 8) from rfl]
  rw [packXNN_and]
  simp only [bits4_and_15, bits4_and_0, BitVec.and_allOnes]
  rfl

theorem packXYN_inj {s x y n s' x' y' n' : Nibble} :
    packXYN s x y n = packXYN s' x' y' n' ↔ s = s' ∧ x = x' ∧ y = y' ∧ n = n' := by
  refine ⟨fun h => ⟨?_, ?_, ?_, ?_⟩, by rintro ⟨rfl, rfl, rfl, rfl⟩; rfl⟩
  · simpa using congrArg setOf h
  · simpa using congrArg xOf h
  · simpa using congrArg yOf h
  · simpa using congrArg nOf h

theorem packXNN_inj {s x s' x' : Nibble} {b b' : Byte} :
    packXNN s x b = packXNN s' x' b' ↔ s = s' ∧ x = x' ∧ b = b' := by
  refine ⟨fun h => ⟨?_, ?_, ?_⟩, by rintro ⟨rfl, rfl, rfl⟩; rfl⟩
  · simpa using congrArg setOf h
  · simpa using congrArg xOf h
  · simpa using congrArg nnOf h

/-- The words of a group whose row fixes Set alone. -/
theorem selects_set {g : Nibble} : w &&& 0xF000 = packXYN g 0 0 0 ↔ setOf w = g := by
  rw [and_F000, packXYN_inj]; simp

/-- The words of a row that fixes Set and N. -/
theorem selects_set_n {g k : Nibble} : w &&& 0xF00F = packXYN g 0 0 k ↔ setOf w = g ∧ nOf w = k := by
  rw [and_F00F, packXYN_inj]; simp

/-- The words of a row that fixes Set and NN. -/
theorem selects_set_nn {g : Nibble} {b : Byte} : w &&& 0xF0FF = packXNN g 0 b ↔ setOf w = g ∧ nnOf w = b := by
  rw [and_F0FF, packXNN_inj]; simp

/-! ## Dispatch, level by level -/

section
variable {f : Fields}

theorem dispatch_set0 (h : f.set = 0x0) : dispatch f = decodeSet0 f := by simp [dispatch, h]
theorem dispatch_set1 (h : f.set = 0x1) : dispatch f = .ok (.jp f.nnn) := by simp [dispatch, h]
theorem dispatch_set2 (h : f.set = 0x2) : dispatch f = .ok (.call f.nnn) := by simp [dispatch, h]
theorem dispatch_set3 (h : f.set = 0x3) : dispatch f = .ok (.seImm f.x f.nn) := by simp [dispatch, h]
theorem dispatch_set4 (h : f.set = 0x4) : dispatch f = .ok (.sneImm f.x f.nn) := by simp [dispatch, h]
theorem dispatch_set5 (h : f.set = 0x5) : dispatch f = .ok (.seReg f.x f.y f.n) := by simp [dispatch, h]
theorem dispatch_set6 (h : f.set = 0x6) : dispatch f = .ok (.ldImm f.x f.nn) := by simp [dispatch, h]
theorem dispatch_set7 (h : f.set = 0x7) : dispatch f = .ok (.addImm f.x f.nn) := by simp [dispatch, h]
theorem dispatch_set8 (h : f.set = 0x8) : dispatch f = decodeSet8 f := by simp [dispatch, h]
theorem dispatch_set9 (h : f.set = 0x9) : dispatch f = .ok (.sneReg f.x f.y f.n) := by simp [dispatch, h]
theorem dispatch_setA (h : f.set = 0xA) : dispatch f = .ok (.ldI f.nnn) := by simp [dispatch, h]
theorem dispatch_setB (h : f.set = 0xB) : dispatch f = .ok (.jpV0 f.nnn) := by simp [dispatch, h]
theorem dispatch_setC (h : f.set = 0xC) : dispatch f = .ok (.rnd f.x f.nn) := by simp [dispatch, h]
theorem dispatch_setD (h : f.set = 0xD) : dispatch f = .ok (.drw f.x f.y f.n) := by simp [dispatch, h]
theorem dispatch_setE (h : f.set = 0xE) : dispatch f = decodeSetE f := by simp [dispatch, h]
theorem dispatch_setF (h : f.set = 0xF) : dispatch f = decodeSetF f := by simp [dispatch, h]

/-- Set 0x0: the selector NN decides (R98). -/
theorem decodeSet0_ok (i : Instr) : decodeSet0 f = .ok i ↔
    (f.nn = 0xE0#8 ∧ i = .cls f.x) ∨ (f.nn = 0xEE#8 ∧ i = .ret f.x) := by
  unfold decodeSet0
  split_ifs <;> simp_all [eq_comm]

/-- Set 0xE: the selector NN decides (R100). -/
theorem decodeSetE_ok (i : Instr) : decodeSetE f = .ok i ↔
    (f.nn = 0x9E#8 ∧ i = .skp f.x) ∨ (f.nn = 0xA1#8 ∧ i = .sknp f.x) := by
  unfold decodeSetE
  split_ifs <;> simp_all [eq_comm]

/-- Set 0x8: the selector N decides (R99). -/
theorem decodeSet8_ok (i : Instr) : decodeSet8 f = .ok i ↔
    (f.n = 0x0 ∧ i = .ldReg f.x f.y) ∨ (f.n = 0x1 ∧ i = .orReg f.x f.y) ∨ (f.n = 0x2 ∧ i = .andReg f.x f.y) ∨
    (f.n = 0x3 ∧ i = .xorReg f.x f.y) ∨ (f.n = 0x4 ∧ i = .addReg f.x f.y) ∨ (f.n = 0x5 ∧ i = .sub f.x f.y) ∨
    (f.n = 0x6 ∧ i = .shr f.x f.y) ∨ (f.n = 0x7 ∧ i = .subn f.x f.y) ∨ (f.n = 0xE ∧ i = .shl f.x f.y) := by
  unfold decodeSet8
  split_ifs <;> simp_all [eq_comm]

/-- Set 0xF: the selector NN decides (R101). -/
theorem decodeSetF_ok (i : Instr) : decodeSetF f = .ok i ↔
    (f.nn = 0x07#8 ∧ i = .ldVxDt f.x) ∨ (f.nn = 0x0A#8 ∧ i = .ldK f.x) ∨ (f.nn = 0x15#8 ∧ i = .ldDtVx f.x) ∨
    (f.nn = 0x18#8 ∧ i = .ldStVx f.x) ∨ (f.nn = 0x1E#8 ∧ i = .addIVx f.x) ∨ (f.nn = 0x29#8 ∧ i = .ldFVx f.x) ∨
    (f.nn = 0x33#8 ∧ i = .ldBVx f.x) ∨ (f.nn = 0x55#8 ∧ i = .ldMemVx f.x) ∨
    (f.nn = 0x65#8 ∧ i = .ldVxMem f.x) := by
  unfold decodeSetF
  split_ifs <;> simp_all [eq_comm]

end

/-! ## Words and bytes -/

/-- A word's two bytes give the word back. -/
theorem wordOfBytes_extract : wordOfBytes (w.extractLsb' 8 8) (w.extractLsb' 0 8) = w := by
  have := w.isLt
  apply BitVec.eq_of_toNat_eq
  rw [wordOfBytes, append_toNat]
  simp only [BitVec.extractLsb'_toNat, Nat.shiftRight_eq_div_pow]
  omega

/-- Decoding the bytes of a word is decoding the word. -/
theorem decode_bytesOfWord (rest : List Byte) :
    decode (bytesOfWord w ++ rest) = (decodeWord w).map fun i => (i, rest) := by
  simp only [bytesOfWord, List.cons_append, List.nil_append, decode, wordOfBytes_extract]

end Sys2Proof
end

