-- ==== Sys2Proof/Laws/Display.lean ====
section
/-! SUPPORT. The laws of the grids and of drawing: what a pixel is after each grid operation, after one pixel update
and after a list of them. -/

namespace Sys2Proof.Machine

namespace Grid

variable (g h : Grid)

@[simp] theorem px_blank (c : Col) (r : ScrRow) : blank.px c r = false := by simp [px, blank]

@[simp] theorem px_build (f : Col → ScrRow → Bool) (c : Col) (r : ScrRow) : (build f).px c r = f c r := by
  simp [px, build]

/-- One pixel written, every other one as before. -/
theorem px_setPx (c : Col) (r : ScrRow) (b : Bool) (c' : Col) (r' : ScrRow) :
    (g.setPx c r b).px c' r' = if c' = c ∧ r' = r then b else g.px c' r' := by
  unfold px setPx
  by_cases hc : c' = c
  · subst hc
    by_cases hr : r' = r
    · subst hr; simp
    · have : ¬ r.val = r'.val := fun e => hr (Fin.ext e.symm)
      simp [hr, this]
  · have : ¬ c.val = c'.val := fun e => hc (Fin.ext e.symm)
    simp [hc, this]

@[simp] theorem px_setPx_self (c : Col) (r : ScrRow) (b : Bool) : (g.setPx c r b).px c r = b := by simp [px_setPx]

theorem px_setPx_other {c : Col} {r : ScrRow} (b : Bool) {c' : Col} {r' : ScrRow} (h : ¬ (c' = c ∧ r' = r)) :
    (g.setPx c r b).px c' r' = g.px c' r' := by
  rw [px_setPx, if_neg h]

/-- Grids with the same pixels are equal. -/
theorem ext_px {g h : Grid} (e : ∀ c r, g.px c r = h.px c r) : g = h := by
  apply Vector.ext
  intro c hc
  apply Vector.ext
  intro r hr
  exact e ⟨c, hc⟩ ⟨r, hr⟩

theorem meets_iff : g.meets h = true ↔ ∃ c r, g.px c r = true ∧ h.px c r = true := by
  simp [meets]

end Grid

namespace Canvas

variable (k : Canvas)

@[simp] theorem flush_fb (fb pend : Grid) (d : Bool) (c : Col) (r : ScrRow) :
    (flush fb pend d).fb.px c r = (fb.px c r && !pend.px c r) := by simp [flush]
@[simp] theorem flush_pend (fb pend : Grid) (d : Bool) (c : Col) (r : ScrRow) :
    (flush fb pend d).pend.px c r = false := by simp [flush]
@[simp] theorem flush_hit (fb pend : Grid) (d : Bool) : (flush fb pend d).hit = false := rfl
theorem flush_redraw (fb pend : Grid) (d : Bool) :
    (flush fb pend d).redraw = true ↔ d = true ∨ ∃ c r, fb.px c r = true ∧ pend.px c r = true := by
  simp [flush, Grid.meets_iff]

/-! ## One pixel update -/

/-- The updated pixel: on at once when its new state is on, and as it was when the clear is deferred. -/
theorem plot_fb_at (c : Col) (r : ScrRow) (s : Bool) :
    (k.plot c r s).fb.px c r = (k.fb.px c r || (k.fb.px c r ^^ s)) := by
  unfold plot
  cases h : k.fb.px c r <;> cases s <;> simp [h]

theorem plot_pend_at (c : Col) (r : ScrRow) (s : Bool) :
    (k.plot c r s).pend.px c r = (k.pend.px c r || !(k.fb.px c r ^^ s)) := by
  unfold plot
  cases h : k.fb.px c r <;> cases s <;> simp

theorem plot_fb_other {c : Col} {r : ScrRow} (s : Bool) {c' : Col} {r' : ScrRow} (h : ¬ (c' = c ∧ r' = r)) :
    (k.plot c r s).fb.px c' r' = k.fb.px c' r' := by
  unfold plot
  dsimp only
  split
  · exact Grid.px_setPx_other _ _ h
  · rfl

theorem plot_pend_other {c : Col} {r : ScrRow} (s : Bool) {c' : Col} {r' : ScrRow} (h : ¬ (c' = c ∧ r' = r)) :
    (k.plot c r s).pend.px c' r' = k.pend.px c' r' := by
  unfold plot
  dsimp only
  split
  · rfl
  · exact Grid.px_setPx_other _ _ h

@[simp] theorem plot_redraw (c : Col) (r : ScrRow) (s : Bool) : (k.plot c r s).redraw = (k.redraw || s) := by
  unfold plot
  cases k.fb.px c r <;> cases s <;> rfl

@[simp] theorem plot_hit (c : Col) (r : ScrRow) (s : Bool) :
    (k.plot c r s).hit = (k.hit || (k.fb.px c r && s)) := by
  unfold plot
  cases k.fb.px c r <;> cases s <;> rfl

/-! ## A list of pixel updates -/

@[simp] theorem draw_nil : k.draw [] = k := rfl
@[simp] theorem draw_cons (d : Dot) (dots : List Dot) : k.draw (d :: dots) = (k.plot d.col d.row d.bit).draw dots :=
  rfl

/-- A pixel no dot goes to is left alone. -/
theorem draw_outside (dots : List Dot) (c : Col) (r : ScrRow) (h : ∀ d ∈ dots, ¬ (c = d.col ∧ r = d.row)) :
    (k.draw dots).fb.px c r = k.fb.px c r ∧ (k.draw dots).pend.px c r = k.pend.px c r := by
  induction dots generalizing k with
  | nil => exact ⟨rfl, rfl⟩
  | cons d dots ih =>
    have hd := h d (by simp)
    obtain ⟨hf, hp⟩ := ih (k.plot d.col d.row d.bit) fun e he => h e (by simp [he])
    exact ⟨by rw [draw_cons, hf, plot_fb_other _ _ hd], by rw [draw_cons, hp, plot_pend_other _ _ hd]⟩

/-- A pixel one dot goes to, and no other one does, is updated once. -/
theorem draw_at (dots : List Dot) (once : (dots.map fun d => (d.col, d.row)).Nodup) (d : Dot) (hd : d ∈ dots) :
    (k.draw dots).fb.px d.col d.row = (k.fb.px d.col d.row || (k.fb.px d.col d.row ^^ d.bit)) ∧
      (k.draw dots).pend.px d.col d.row = (k.pend.px d.col d.row || !(k.fb.px d.col d.row ^^ d.bit)) := by
  induction dots generalizing k with
  | nil => simp at hd
  | cons e dots ih =>
    simp only [List.map_cons, List.nodup_cons, List.mem_map, not_exists, not_and, Prod.mk.injEq] at once
    rcases List.mem_cons.1 hd with rfl | hd
    · have out := draw_outside (k.plot d.col d.row d.bit) dots d.col d.row fun f hf hcr =>
        once.1 f hf hcr.1.symm hcr.2.symm
      exact ⟨by rw [draw_cons, out.1, plot_fb_at], by rw [draw_cons, out.2, plot_pend_at]⟩
    · have ne : ¬ (d.col = e.col ∧ d.row = e.row) := fun hcr => once.1 d hd hcr.1 hcr.2
      have := ih (k.plot e.col e.row e.bit) once.2 hd
      rw [draw_cons]
      rwa [plot_fb_other _ _ ne, plot_pend_other _ _ ne] at this

/-- `redraw` is set by every 1-bit. -/
theorem draw_redraw (dots : List Dot) : (k.draw dots).redraw = (k.redraw || dots.any Dot.bit) := by
  induction dots generalizing k with
  | nil => simp
  | cons d dots ih => simp [ih, Bool.or_assoc]

/-- The collision bit is set when some 1-bit meets a pixel that was on, no pixel being visited twice. -/
theorem draw_hit (dots : List Dot) (once : (dots.map fun d => (d.col, d.row)).Nodup) :
    (k.draw dots).hit = (k.hit || dots.any fun d => k.fb.px d.col d.row && d.bit) := by
  induction dots generalizing k with
  | nil => simp
  | cons e dots ih =>
    simp only [List.map_cons, List.nodup_cons, List.mem_map, not_exists, not_and, Prod.mk.injEq] at once
    have same : (dots.any fun d => (k.plot e.col e.row e.bit).fb.px d.col d.row && d.bit) =
        dots.any fun d => k.fb.px d.col d.row && d.bit := by
      rw [Bool.eq_iff_iff]
      simp only [List.any_eq_true]
      refine exists_congr fun d => and_congr_right fun hd => ?_
      rw [plot_fb_other k e.bit fun hcr => once.1 d hd hcr.1 hcr.2]
    rw [draw_cons, ih _ once.2, same, plot_hit, List.any_cons, Bool.or_assoc]

end Canvas

/-! ## The sprite's dots -/

theorem mem_spriteDots {vx vy : Byte} {n : Nat} {byteAt : Nat → Byte} {d : Dot} :
    d ∈ spriteDots vx vy n byteAt ↔
      ∃ row < n, ∃ bit < 8, d = { col := colOf vx bit, row := rowOf vy row, bit := (byteAt row).getLsbD (7 - bit) } := by
  simp [spriteDots, rowDots, eq_comm]

end Sys2Proof.Machine
end

