-- ==== Sys2Proof/Laws/State.lean ====
section
/-! SUPPORT. One lemma per field per update of the state: what each named update leaves in each field and in each
reader. The lemmas about the memory byte read after a write are in Laws/Memory.lean. -/

namespace Sys2Proof.Machine.State

variable (s : State)

/-! ## `setV` -/

@[simp] theorem setV_mem (r : Nibble) (b : Byte) : (s.setV r b).mem = s.mem := rfl
@[simp] theorem setV_i (r : Nibble) (b : Byte) : (s.setV r b).i = s.i := rfl
@[simp] theorem setV_pc (r : Nibble) (b : Byte) : (s.setV r b).pc = s.pc := rfl
@[simp] theorem setV_stack (r : Nibble) (b : Byte) : (s.setV r b).stack = s.stack := rfl
@[simp] theorem setV_sp (r : Nibble) (b : Byte) : (s.setV r b).sp = s.sp := rfl
@[simp] theorem setV_dt (r : Nibble) (b : Byte) : (s.setV r b).dt = s.dt := rfl
@[simp] theorem setV_fb (r : Nibble) (b : Byte) : (s.setV r b).fb = s.fb := rfl
@[simp] theorem setV_pend (r : Nibble) (b : Byte) : (s.setV r b).pend = s.pend := rfl
@[simp] theorem setV_redraw (r : Nibble) (b : Byte) : (s.setV r b).redraw = s.redraw := rfl
@[simp] theorem setV_keys (r : Nibble) (b : Byte) : (s.setV r b).keys = s.keys := rfl
@[simp] theorem setV_booted (r : Nibble) (b : Byte) : (s.setV r b).booted = s.booted := rfl
@[simp] theorem setV_faults (r : Nibble) (b : Byte) : (s.setV r b).faults = s.faults := rfl
@[simp] theorem setV_out (r : Nibble) (b : Byte) : (s.setV r b).out = s.out := rfl
@[simp] theorem setV_draws (r : Nibble) (b : Byte) : (s.setV r b).draws = s.draws := rfl
@[simp] theorem setV_cfg (r : Nibble) (b : Byte) : (s.setV r b).cfg = s.cfg := rfl
@[simp] theorem setV_memRead (r : Nibble) (b : Byte) (q : Nat) : (s.setV r b).memRead q = s.memRead q := rfl

/-! ## `setVF` -/

@[simp] theorem setVF_mem (f : Bool) : (s.setVF f).mem = s.mem := rfl
@[simp] theorem setVF_i (f : Bool) : (s.setVF f).i = s.i := rfl
@[simp] theorem setVF_pc (f : Bool) : (s.setVF f).pc = s.pc := rfl
@[simp] theorem setVF_stack (f : Bool) : (s.setVF f).stack = s.stack := rfl
@[simp] theorem setVF_sp (f : Bool) : (s.setVF f).sp = s.sp := rfl
@[simp] theorem setVF_dt (f : Bool) : (s.setVF f).dt = s.dt := rfl
@[simp] theorem setVF_fb (f : Bool) : (s.setVF f).fb = s.fb := rfl
@[simp] theorem setVF_pend (f : Bool) : (s.setVF f).pend = s.pend := rfl
@[simp] theorem setVF_redraw (f : Bool) : (s.setVF f).redraw = s.redraw := rfl
@[simp] theorem setVF_keys (f : Bool) : (s.setVF f).keys = s.keys := rfl
@[simp] theorem setVF_booted (f : Bool) : (s.setVF f).booted = s.booted := rfl
@[simp] theorem setVF_faults (f : Bool) : (s.setVF f).faults = s.faults := rfl
@[simp] theorem setVF_out (f : Bool) : (s.setVF f).out = s.out := rfl
@[simp] theorem setVF_draws (f : Bool) : (s.setVF f).draws = s.draws := rfl
@[simp] theorem setVF_cfg (f : Bool) : (s.setVF f).cfg = s.cfg := rfl
@[simp] theorem setVF_memRead (f : Bool) (q : Nat) : (s.setVF f).memRead q = s.memRead q := rfl

/-! ## `setI` -/

@[simp] theorem setI_mem (a : Word) : (s.setI a).mem = s.mem := rfl
@[simp] theorem setI_i (a : Word) : (s.setI a).i = a := rfl
@[simp] theorem setI_pc (a : Word) : (s.setI a).pc = s.pc := rfl
@[simp] theorem setI_stack (a : Word) : (s.setI a).stack = s.stack := rfl
@[simp] theorem setI_sp (a : Word) : (s.setI a).sp = s.sp := rfl
@[simp] theorem setI_dt (a : Word) : (s.setI a).dt = s.dt := rfl
@[simp] theorem setI_fb (a : Word) : (s.setI a).fb = s.fb := rfl
@[simp] theorem setI_pend (a : Word) : (s.setI a).pend = s.pend := rfl
@[simp] theorem setI_redraw (a : Word) : (s.setI a).redraw = s.redraw := rfl
@[simp] theorem setI_keys (a : Word) : (s.setI a).keys = s.keys := rfl
@[simp] theorem setI_booted (a : Word) : (s.setI a).booted = s.booted := rfl
@[simp] theorem setI_faults (a : Word) : (s.setI a).faults = s.faults := rfl
@[simp] theorem setI_out (a : Word) : (s.setI a).out = s.out := rfl
@[simp] theorem setI_draws (a : Word) : (s.setI a).draws = s.draws := rfl
@[simp] theorem setI_cfg (a : Word) : (s.setI a).cfg = s.cfg := rfl
@[simp] theorem setI_v (a : Word) : (s.setI a).v = s.v := rfl
@[simp] theorem setI_getV (a : Word) (q : Nibble) : (s.setI a).getV q = s.getV q := rfl
@[simp] theorem setI_memRead (a : Word) (q : Nat) : (s.setI a).memRead q = s.memRead q := rfl

/-! ## `setPc` -/

@[simp] theorem setPc_mem (a : Word) : (s.setPc a).mem = s.mem := rfl
@[simp] theorem setPc_i (a : Word) : (s.setPc a).i = s.i := rfl
@[simp] theorem setPc_pc (a : Word) : (s.setPc a).pc = a := rfl
@[simp] theorem setPc_stack (a : Word) : (s.setPc a).stack = s.stack := rfl
@[simp] theorem setPc_sp (a : Word) : (s.setPc a).sp = s.sp := rfl
@[simp] theorem setPc_dt (a : Word) : (s.setPc a).dt = s.dt := rfl
@[simp] theorem setPc_fb (a : Word) : (s.setPc a).fb = s.fb := rfl
@[simp] theorem setPc_pend (a : Word) : (s.setPc a).pend = s.pend := rfl
@[simp] theorem setPc_redraw (a : Word) : (s.setPc a).redraw = s.redraw := rfl
@[simp] theorem setPc_keys (a : Word) : (s.setPc a).keys = s.keys := rfl
@[simp] theorem setPc_booted (a : Word) : (s.setPc a).booted = s.booted := rfl
@[simp] theorem setPc_faults (a : Word) : (s.setPc a).faults = s.faults := rfl
@[simp] theorem setPc_out (a : Word) : (s.setPc a).out = s.out := rfl
@[simp] theorem setPc_draws (a : Word) : (s.setPc a).draws = s.draws := rfl
@[simp] theorem setPc_cfg (a : Word) : (s.setPc a).cfg = s.cfg := rfl
@[simp] theorem setPc_v (a : Word) : (s.setPc a).v = s.v := rfl
@[simp] theorem setPc_getV (a : Word) (q : Nibble) : (s.setPc a).getV q = s.getV q := rfl
@[simp] theorem setPc_memRead (a : Word) (q : Nat) : (s.setPc a).memRead q = s.memRead q := rfl

/-! ## `setDt` -/

@[simp] theorem setDt_mem (b : Byte) : (s.setDt b).mem = s.mem := rfl
@[simp] theorem setDt_i (b : Byte) : (s.setDt b).i = s.i := rfl
@[simp] theorem setDt_pc (b : Byte) : (s.setDt b).pc = s.pc := rfl
@[simp] theorem setDt_stack (b : Byte) : (s.setDt b).stack = s.stack := rfl
@[simp] theorem setDt_sp (b : Byte) : (s.setDt b).sp = s.sp := rfl
@[simp] theorem setDt_dt (b : Byte) : (s.setDt b).dt = b := rfl
@[simp] theorem setDt_fb (b : Byte) : (s.setDt b).fb = s.fb := rfl
@[simp] theorem setDt_pend (b : Byte) : (s.setDt b).pend = s.pend := rfl
@[simp] theorem setDt_redraw (b : Byte) : (s.setDt b).redraw = s.redraw := rfl
@[simp] theorem setDt_keys (b : Byte) : (s.setDt b).keys = s.keys := rfl
@[simp] theorem setDt_booted (b : Byte) : (s.setDt b).booted = s.booted := rfl
@[simp] theorem setDt_faults (b : Byte) : (s.setDt b).faults = s.faults := rfl
@[simp] theorem setDt_out (b : Byte) : (s.setDt b).out = s.out := rfl
@[simp] theorem setDt_draws (b : Byte) : (s.setDt b).draws = s.draws := rfl
@[simp] theorem setDt_cfg (b : Byte) : (s.setDt b).cfg = s.cfg := rfl
@[simp] theorem setDt_v (b : Byte) : (s.setDt b).v = s.v := rfl
@[simp] theorem setDt_getV (b : Byte) (q : Nibble) : (s.setDt b).getV q = s.getV q := rfl
@[simp] theorem setDt_memRead (b : Byte) (q : Nat) : (s.setDt b).memRead q = s.memRead q := rfl

/-! ## `memWrite` -/

@[simp] theorem memWrite_mem (a : Nat) (b : Byte) : (s.memWrite a b).mem = Memory.write s.cfg s.mem (reduceAddr a) b := rfl
@[simp] theorem memWrite_i (a : Nat) (b : Byte) : (s.memWrite a b).i = s.i := rfl
@[simp] theorem memWrite_pc (a : Nat) (b : Byte) : (s.memWrite a b).pc = s.pc := rfl
@[simp] theorem memWrite_stack (a : Nat) (b : Byte) : (s.memWrite a b).stack = s.stack := rfl
@[simp] theorem memWrite_sp (a : Nat) (b : Byte) : (s.memWrite a b).sp = s.sp := rfl
@[simp] theorem memWrite_dt (a : Nat) (b : Byte) : (s.memWrite a b).dt = s.dt := rfl
@[simp] theorem memWrite_fb (a : Nat) (b : Byte) : (s.memWrite a b).fb = s.fb := rfl
@[simp] theorem memWrite_pend (a : Nat) (b : Byte) : (s.memWrite a b).pend = s.pend := rfl
@[simp] theorem memWrite_redraw (a : Nat) (b : Byte) : (s.memWrite a b).redraw = s.redraw := rfl
@[simp] theorem memWrite_keys (a : Nat) (b : Byte) : (s.memWrite a b).keys = s.keys := rfl
@[simp] theorem memWrite_booted (a : Nat) (b : Byte) : (s.memWrite a b).booted = s.booted := rfl
@[simp] theorem memWrite_faults (a : Nat) (b : Byte) : (s.memWrite a b).faults = s.faults := rfl
@[simp] theorem memWrite_out (a : Nat) (b : Byte) : (s.memWrite a b).out = s.out := rfl
@[simp] theorem memWrite_draws (a : Nat) (b : Byte) : (s.memWrite a b).draws = s.draws := rfl
@[simp] theorem memWrite_cfg (a : Nat) (b : Byte) : (s.memWrite a b).cfg = s.cfg := rfl
@[simp] theorem memWrite_v (a : Nat) (b : Byte) : (s.memWrite a b).v = s.v := rfl
@[simp] theorem memWrite_getV (a : Nat) (b : Byte) (q : Nibble) : (s.memWrite a b).getV q = s.getV q := rfl

/-! ## `setDisplay` -/

@[simp] theorem setDisplay_mem (g p : Grid) (d : Bool) : (s.setDisplay g p d).mem = s.mem := rfl
@[simp] theorem setDisplay_i (g p : Grid) (d : Bool) : (s.setDisplay g p d).i = s.i := rfl
@[simp] theorem setDisplay_pc (g p : Grid) (d : Bool) : (s.setDisplay g p d).pc = s.pc := rfl
@[simp] theorem setDisplay_stack (g p : Grid) (d : Bool) : (s.setDisplay g p d).stack = s.stack := rfl
@[simp] theorem setDisplay_sp (g p : Grid) (d : Bool) : (s.setDisplay g p d).sp = s.sp := rfl
@[simp] theorem setDisplay_dt (g p : Grid) (d : Bool) : (s.setDisplay g p d).dt = s.dt := rfl
@[simp] theorem setDisplay_fb (g p : Grid) (d : Bool) : (s.setDisplay g p d).fb = g := rfl
@[simp] theorem setDisplay_pend (g p : Grid) (d : Bool) : (s.setDisplay g p d).pend = p := rfl
@[simp] theorem setDisplay_redraw (g p : Grid) (d : Bool) : (s.setDisplay g p d).redraw = d := rfl
@[simp] theorem setDisplay_keys (g p : Grid) (d : Bool) : (s.setDisplay g p d).keys = s.keys := rfl
@[simp] theorem setDisplay_booted (g p : Grid) (d : Bool) : (s.setDisplay g p d).booted = s.booted := rfl
@[simp] theorem setDisplay_faults (g p : Grid) (d : Bool) : (s.setDisplay g p d).faults = s.faults := rfl
@[simp] theorem setDisplay_out (g p : Grid) (d : Bool) : (s.setDisplay g p d).out = s.out := rfl
@[simp] theorem setDisplay_draws (g p : Grid) (d : Bool) : (s.setDisplay g p d).draws = s.draws := rfl
@[simp] theorem setDisplay_cfg (g p : Grid) (d : Bool) : (s.setDisplay g p d).cfg = s.cfg := rfl
@[simp] theorem setDisplay_v (g p : Grid) (d : Bool) : (s.setDisplay g p d).v = s.v := rfl
@[simp] theorem setDisplay_getV (g p : Grid) (d : Bool) (q : Nibble) : (s.setDisplay g p d).getV q = s.getV q := rfl
@[simp] theorem setDisplay_memRead (g p : Grid) (d : Bool) (q : Nat) : (s.setDisplay g p d).memRead q = s.memRead q := rfl

/-! ## `emit` -/

@[simp] theorem emit_mem (e : Event) : (s.emit e).mem = s.mem := rfl
@[simp] theorem emit_i (e : Event) : (s.emit e).i = s.i := rfl
@[simp] theorem emit_pc (e : Event) : (s.emit e).pc = s.pc := rfl
@[simp] theorem emit_stack (e : Event) : (s.emit e).stack = s.stack := rfl
@[simp] theorem emit_sp (e : Event) : (s.emit e).sp = s.sp := rfl
@[simp] theorem emit_dt (e : Event) : (s.emit e).dt = s.dt := rfl
@[simp] theorem emit_fb (e : Event) : (s.emit e).fb = s.fb := rfl
@[simp] theorem emit_pend (e : Event) : (s.emit e).pend = s.pend := rfl
@[simp] theorem emit_redraw (e : Event) : (s.emit e).redraw = s.redraw := rfl
@[simp] theorem emit_keys (e : Event) : (s.emit e).keys = s.keys := rfl
@[simp] theorem emit_booted (e : Event) : (s.emit e).booted = s.booted := rfl
@[simp] theorem emit_faults (e : Event) : (s.emit e).faults = s.faults := rfl
@[simp] theorem emit_out (e : Event) : (s.emit e).out = s.out ++ [e] := rfl
@[simp] theorem emit_draws (e : Event) : (s.emit e).draws = s.draws := rfl
@[simp] theorem emit_cfg (e : Event) : (s.emit e).cfg = s.cfg := rfl
@[simp] theorem emit_v (e : Event) : (s.emit e).v = s.v := rfl
@[simp] theorem emit_getV (e : Event) (q : Nibble) : (s.emit e).getV q = s.getV q := rfl
@[simp] theorem emit_memRead (e : Event) (q : Nat) : (s.emit e).memRead q = s.memRead q := rfl

/-! ## `raise` -/

@[simp] theorem raise_mem (e : Fault) : (s.raise e).mem = s.mem := rfl
@[simp] theorem raise_i (e : Fault) : (s.raise e).i = s.i := rfl
@[simp] theorem raise_pc (e : Fault) : (s.raise e).pc = s.pc := rfl
@[simp] theorem raise_stack (e : Fault) : (s.raise e).stack = s.stack := rfl
@[simp] theorem raise_sp (e : Fault) : (s.raise e).sp = s.sp := rfl
@[simp] theorem raise_dt (e : Fault) : (s.raise e).dt = s.dt := rfl
@[simp] theorem raise_fb (e : Fault) : (s.raise e).fb = s.fb := rfl
@[simp] theorem raise_pend (e : Fault) : (s.raise e).pend = s.pend := rfl
@[simp] theorem raise_redraw (e : Fault) : (s.raise e).redraw = s.redraw := rfl
@[simp] theorem raise_keys (e : Fault) : (s.raise e).keys = s.keys := rfl
@[simp] theorem raise_booted (e : Fault) : (s.raise e).booted = s.booted := rfl
@[simp] theorem raise_faults (e : Fault) : (s.raise e).faults = s.faults ++ [e] := rfl
@[simp] theorem raise_out (e : Fault) : (s.raise e).out = s.out := rfl
@[simp] theorem raise_draws (e : Fault) : (s.raise e).draws = s.draws := rfl
@[simp] theorem raise_cfg (e : Fault) : (s.raise e).cfg = s.cfg := rfl
@[simp] theorem raise_v (e : Fault) : (s.raise e).v = s.v := rfl
@[simp] theorem raise_getV (e : Fault) (q : Nibble) : (s.raise e).getV q = s.getV q := rfl
@[simp] theorem raise_memRead (e : Fault) (q : Nat) : (s.raise e).memRead q = s.memRead q := rfl

/-! ## `countDraw` -/

@[simp] theorem countDraw_mem : s.countDraw.mem = s.mem := rfl
@[simp] theorem countDraw_i : s.countDraw.i = s.i := rfl
@[simp] theorem countDraw_pc : s.countDraw.pc = s.pc := rfl
@[simp] theorem countDraw_stack : s.countDraw.stack = s.stack := rfl
@[simp] theorem countDraw_sp : s.countDraw.sp = s.sp := rfl
@[simp] theorem countDraw_dt : s.countDraw.dt = s.dt := rfl
@[simp] theorem countDraw_fb : s.countDraw.fb = s.fb := rfl
@[simp] theorem countDraw_pend : s.countDraw.pend = s.pend := rfl
@[simp] theorem countDraw_redraw : s.countDraw.redraw = s.redraw := rfl
@[simp] theorem countDraw_keys : s.countDraw.keys = s.keys := rfl
@[simp] theorem countDraw_booted : s.countDraw.booted = s.booted := rfl
@[simp] theorem countDraw_faults : s.countDraw.faults = s.faults := rfl
@[simp] theorem countDraw_out : s.countDraw.out = s.out := rfl
@[simp] theorem countDraw_draws : s.countDraw.draws = s.draws + 1 := rfl
@[simp] theorem countDraw_cfg : s.countDraw.cfg = s.cfg := rfl
@[simp] theorem countDraw_v : s.countDraw.v = s.v := rfl
@[simp] theorem countDraw_getV (q : Nibble) : s.countDraw.getV q = s.getV q := rfl
@[simp] theorem countDraw_memRead (q : Nat) : s.countDraw.memRead q = s.memRead q := rfl

/-! ## Register reads after a register write -/

theorem setV_getV (r : Nibble) (b : Byte) (q : Nibble) :
    (s.setV r b).getV q = if q = r then b else s.getV q := by
  unfold setV getV
  by_cases h : q = r
  · subst h; simp
  · have h' : ¬ r.val = q.val := fun e => h (Fin.ext e.symm)
    simp [h, h']

@[simp] theorem setV_getV_self (r : Nibble) (b : Byte) : (s.setV r b).getV r = b := by simp [setV_getV]

theorem setV_getV_other {r q : Nibble} (b : Byte) (h : q ≠ r) : (s.setV r b).getV q = s.getV q := by
  simp [setV_getV, h]

@[simp] theorem setVF_getV_VF (f : Bool) : (s.setVF f).getV 15 = if f then 1 else 0 := by simp [setVF]

theorem setVF_getV_other {q : Nibble} (f : Bool) (h : q ≠ 15) : (s.setVF f).getV q = s.getV q := by
  simp [setVF, setV_getV_other, h]

/-! ## The fetch's advance and the skip -/

theorem advance_eq_setPc : s.advance = s.setPc (s.pc + 2) := rfl

theorem skipIf_eq_setPc (c : Bool) : s.skipIf c = s.setPc (if c then s.pc + 2 else s.pc) := by
  cases c <;> rfl

@[simp] theorem skipIf_pc (c : Bool) : (s.skipIf c).pc = if c then s.pc + 2 else s.pc := by
  simp [skipIf_eq_setPc]

/-! ## The call stack -/

theorem push_eq_none_iff (a : Word) : s.push a = none ↔ s.sp.val = 16 := by
  have := s.sp.isLt
  unfold push
  split <;> simp <;> omega

theorem pop_eq_none_iff : s.pop = none ↔ s.sp.val = 0 := by
  unfold pop
  split <;> simp <;> omega

/-- Everything a push can do: the entry at the old SP, SP one more, all else unchanged. -/
theorem push_eq_some {a : Word} {t : State} (h : s.push a = some t) :
    ∃ lt : s.sp.val < 16, t = { s with stack := s.stack.set s.sp.val a, sp := ⟨s.sp.val + 1, by omega⟩ } := by
  unfold push at h
  split at h
  · exact ⟨‹_›, by simpa using h.symm⟩
  · cases h

/-- Everything a pop can do: the value below the old SP, SP one less, all else unchanged. -/
theorem pop_eq_some {a : Word} {t : State} (h : s.pop = some (a, t)) :
    ∃ (_ : 0 < s.sp.val) (lt : s.sp.val - 1 < 16), a = s.stack[s.sp.val - 1] ∧
      t = { s with sp := ⟨s.sp.val - 1, by omega⟩ } := by
  have hsp := s.sp.isLt
  unfold pop at h
  split at h
  · simp only [Option.some.injEq, Prod.mk.injEq] at h
    exact ⟨‹_›, by omega, h.1.symm, h.2.symm⟩
  · cases h

/-- A pop after a push answers the pushed value and undoes SP. -/
theorem push_pop {a : Word} {t : State} (h : s.push a = some t) :
    t.pop = some (a, { t with sp := s.sp }) := by
  obtain ⟨lt, rfl⟩ := s.push_eq_some h
  simp [pop]

end Sys2Proof.Machine.State
end

