-- ==== Sys2Proof/Laws/Memory.lean ====
section
/-! SUPPORT. The laws of memory: a read after a write, and that every memory operation keeps the canonical form. -/

namespace Sys2Proof.Machine.Memory

variable (c : Config)

/-! ## Canonical form -/

theorem wfFrom_cons {lo a : Nat} {v : Byte} {m : Memory} :
    wfFrom c lo ((a, v) :: m) = true ↔
      lo ≤ a ∧ a < memSize ∧ v ≠ resetByte c a ∧ wfFrom c (a + 1) m = true := by
  simp [wfFrom, and_assoc]

theorem wfFrom_mono {lo lo' : Nat} (h : lo' ≤ lo) {m : Memory} (w : wfFrom c lo m = true) :
    wfFrom c lo' m = true := by
  cases m with
  | nil => rfl
  | cons e m =>
    rw [wfFrom_cons] at w ⊢
    exact ⟨by omega, w.2⟩

/-- Nothing is listed below the bound. -/
theorem find_below {lo a : Nat} (h : a < lo) {m : Memory} (w : wfFrom c lo m = true) : find m a = none := by
  induction m generalizing lo with
  | nil => rfl
  | cons e m ih =>
    obtain ⟨b, u⟩ := e
    rw [wfFrom_cons] at w
    rw [find, if_neg (by omega)]
    exact ih (lo := b + 1) (by omega) w.2.2.2

theorem insert_wfFrom {lo a : Nat} {v : Byte} (hlo : lo ≤ a) (hlt : a < memSize) (hv : v ≠ resetByte c a)
    {m : Memory} (w : wfFrom c lo m = true) : wfFrom c lo (insert a v m) = true := by
  induction m generalizing lo with
  | nil => simpa [insert, wfFrom_cons] using ⟨hlo, hlt, hv, rfl⟩
  | cons e m ih =>
    obtain ⟨b, u⟩ := e
    rw [wfFrom_cons] at w
    obtain ⟨hb, hbm, hu, wm⟩ := w
    unfold insert
    split
    · exact (wfFrom_cons c).2 ⟨hlo, hlt, hv, (wfFrom_cons c).2 ⟨by omega, hbm, hu, wm⟩⟩
    · split
      · subst_vars
        exact (wfFrom_cons c).2 ⟨hlo, hlt, hv, wm⟩
      · exact (wfFrom_cons c).2 ⟨hb, hbm, hu, ih (by omega) wm⟩

theorem erase_wfFrom {lo a : Nat} {m : Memory} (w : wfFrom c lo m = true) : wfFrom c lo (erase a m) = true := by
  induction m generalizing lo with
  | nil => rfl
  | cons e m ih =>
    obtain ⟨b, u⟩ := e
    rw [wfFrom_cons] at w
    obtain ⟨hb, hbm, hu, wm⟩ := w
    unfold erase
    split
    · exact wfFrom_mono c (by omega) (ih (lo := b + 1) wm)
    · exact (wfFrom_cons c).2 ⟨hb, hbm, hu, ih wm⟩

/-- A write keeps the canonical form. -/
theorem write_wf {a : Nat} {v : Byte} (hlt : a < memSize) {m : Memory} (w : wf c m = true) :
    wf c (write c m a v) = true := by
  unfold write
  split
  · exact erase_wfFrom c w
  · exact insert_wfFrom c (Nat.zero_le a) hlt ‹_› w

/-! ## Reads after writes -/

theorem find_insert (a q : Nat) (v : Byte) (m : Memory) :
    find (insert a v m) q = if a = q then some v else find m q := by
  induction m with
  | nil => rfl
  | cons e m ih =>
    obtain ⟨b, u⟩ := e
    unfold insert
    split
    · rfl
    · split
      · subst_vars
        simp only [find]
        split <;> rfl
      · simp only [find, ih]
        split <;> split <;> simp_all

theorem find_erase_other {a q : Nat} (h : a ≠ q) (m : Memory) : find (erase a m) q = find m q := by
  induction m with
  | nil => rfl
  | cons e m ih =>
    obtain ⟨b, u⟩ := e
    unfold erase
    split
    · subst_vars
      simp [find, h, ih]
    · simp only [find, ih]

theorem find_erase_self (a : Nat) (m : Memory) : find (erase a m) a = none := by
  induction m with
  | nil => rfl
  | cons e m ih =>
    obtain ⟨b, u⟩ := e
    unfold erase
    split
    · exact ih
    · rw [find, if_neg (fun e => ‹¬ a = b› e.symm), ih]

/-- A read elsewhere is unchanged by a write, whatever the list. -/
theorem read_write_other {a q : Nat} (h : a ≠ q) (v : Byte) (m : Memory) :
    read c (write c m a v) q = read c m q := by
  unfold write read
  split
  · rw [find_erase_other h]
  · rw [find_insert, if_neg h]

/-- A read at the written address gives the written byte, whatever the list. -/
theorem read_write_self (a : Nat) (v : Byte) (m : Memory) : read c (write c m a v) a = v := by
  unfold write read
  split
  · rw [find_erase_self]
    exact ‹v = resetByte c a›.symm
  · rw [find_insert, if_pos rfl]
    rfl

theorem read_write (a q : Nat) (v : Byte) (m : Memory) :
    read c (write c m a v) q = if a = q then v else read c m q := by
  by_cases h : a = q
  · subst h
    simp [read_write_self]
  · simp [h, read_write_other]

/-! ## Equal memories are equal lists -/

/-- Two canonical memories that list the same bytes are the same list. -/
theorem wfFrom_ext {lo : Nat} {m n : Memory} (wm : wfFrom c lo m = true) (wn : wfFrom c lo n = true)
    (h : ∀ a, find m a = find n a) : m = n := by
  induction m generalizing lo n with
  | nil =>
    cases n with
    | nil => rfl
    | cons e n => simpa [find] using h e.1
  | cons e m ih =>
    obtain ⟨a, u⟩ := e
    cases n with
    | nil => simpa [find] using h a
    | cons e' n =>
      obtain ⟨b, v⟩ := e'
      rw [wfFrom_cons] at wm wn
      have hab : a = b := by
        have ha := h a
        have hb := h b
        rcases Nat.lt_trichotomy a b with lt | eq | gt
        · simp [find, find_below c (a := a) (lo := b + 1) (by omega) wn.2.2.2] at ha
          omega
        · exact eq
        · simp [find, find_below c (a := b) (lo := a + 1) (by omega) wm.2.2.2] at hb
          omega
      subst hab
      have huv : u = v := by simpa [find] using h a
      subst huv
      refine congrArg _ (ih wm.2.2.2 wn.2.2.2 fun q => ?_)
      by_cases hq : a = q
      · subst hq
        rw [find_below c (Nat.lt_succ_self a) wm.2.2.2, find_below c (Nat.lt_succ_self a) wn.2.2.2]
      · simpa [find, hq] using h q

/-- Canonical memories that read the same everywhere are equal. -/
theorem wf_ext {m n : Memory} (wm : wf c m = true) (wn : wf c n = true)
    (h : ∀ a, read c m a = read c n a) : m = n := by
  refine wfFrom_ext c wm wn fun a => ?_
  have listed : ∀ {lo : Nat} {k : Memory}, wfFrom c lo k = true → find k a ≠ some (resetByte c a) := by
    intro lo k w
    induction k generalizing lo with
    | nil => simp [find]
    | cons e k ih =>
      obtain ⟨b, u⟩ := e
      rw [wfFrom_cons] at w
      simp only [find]
      split
      · subst_vars
        simpa using w.2.2.1
      · exact ih w.2.2.2
  have h1 := listed wm
  have h2 := listed wn
  have ha := h a
  unfold read at ha
  cases hm : find m a <;> cases hn : find n a <;> simp_all

end Sys2Proof.Machine.Memory

namespace Sys2Proof.Machine.State

variable (s : State)

/-! ## The state's memory operations -/

theorem reduceAddr_lt (a : Nat) : reduceAddr a < memSize := Nat.mod_lt _ (by decide)

/-- What a read gives after a write (spec/20_memory.md R62, R63). -/
theorem memWrite_memRead (a : Nat) (b : Byte) (q : Nat) :
    (s.memWrite a b).memRead q = if reduceAddr a = reduceAddr q then b else s.memRead q := by
  simp only [memRead, memWrite, Memory.read_write]

theorem memWrite_wf {a : Nat} {b : Byte} (w : Memory.wf s.cfg s.mem = true) :
    Memory.wf (s.memWrite a b).cfg (s.memWrite a b).mem = true :=
  Memory.write_wf s.cfg (reduceAddr_lt a) w

theorem reset_wf : Memory.wf State.reset.cfg State.reset.mem = true := rfl

theorem storeBytes_wf (a : Nat) (bs : List Byte) (w : Memory.wf s.cfg s.mem = true) :
    Memory.wf (s.storeBytes a bs).cfg (s.storeBytes a bs).mem = true := by
  induction bs generalizing s a with
  | nil => exact w
  | cons b bs ih => exact ih (s.memWrite a b) (a + 1) (s.memWrite_wf w)

/-- Storing bytes changes memory and nothing else. -/
theorem storeBytes_eq (a : Nat) (bs : List Byte) : s.storeBytes a bs = { s with mem := (s.storeBytes a bs).mem } := by
  induction bs generalizing s a with
  | nil => rfl
  | cons b bs ih => exact ih (s.memWrite a b) (a + 1)

/-- A byte outside the stored addresses reads as before. -/
theorem storeBytes_memRead_outside (a : Nat) (bs : List Byte) (q : Nat)
    (h : ∀ k < bs.length, reduceAddr (a + k) ≠ reduceAddr q) : (s.storeBytes a bs).memRead q = s.memRead q := by
  induction bs generalizing s a with
  | nil => rfl
  | cons b bs ih =>
    have h0 := h 0 (by simp)
    rw [storeBytes, ih, memWrite_memRead, if_neg (by simpa using h0)]
    intro k hk
    have := h (k + 1) (by simpa using hk)
    simpa [Nat.add_assoc, Nat.add_comm 1 k] using this

/-- A stored byte reads back, when no more bytes are stored than memory holds. -/
theorem storeBytes_memRead_inside (a : Nat) (bs : List Byte) (hlen : bs.length ≤ memSize) (k : Nat)
    (hk : k < bs.length) : (s.storeBytes a bs).memRead (a + k) = bs[k] := by
  induction bs generalizing s a k with
  | nil => simp at hk
  | cons b bs ih =>
    simp only [List.length_cons] at hlen hk
    cases k with
    | zero =>
      rw [storeBytes, storeBytes_memRead_outside]
      · simp [memWrite_memRead]
      · intro j hj
        simp only [reduceAddr, memSize] at *
        omega
    | succ k =>
      have := ih (s.memWrite a b) (a + 1) (by omega) k (by omega)
      rw [storeBytes]
      simpa [Nat.add_assoc, Nat.add_comm 1 k] using this

end Sys2Proof.Machine.State
end

