-- ==== Sys2Proof/Laws/PerInstr.lean ====
section
/-! SUPPORT. The family RowWord: an instruction's word selects the instruction's own row of the opcode map, and the row
is one of the table (spec/30_encoding.md R97). One lemma per constructor. -/

namespace Sys2Proof.Laws.RowWord

/-- The word of the instruction selects its row, and the row stands in the table. -/
def Statement (i : Instr) : Prop := i.row.Selects (encodeWord i) ∧ i.row ∈ opcodeTable

theorem of_set {i : Instr} {g : Nibble} (hw : setOf (encodeWord i) = g) (hm : i.row.mask = 0xF000)
    (ht : i.row.mtch = packXYN g 0 0 0) (hr : i.row ∈ opcodeTable) : Statement i := by
  refine ⟨?_, hr⟩
  rw [Row.Selects, hm, ht]
  exact (selects_set _).2 hw

theorem of_set_n {i : Instr} {g k : Nibble} (hw : setOf (encodeWord i) = g ∧ nOf (encodeWord i) = k)
    (hm : i.row.mask = 0xF00F) (ht : i.row.mtch = packXYN g 0 0 k) (hr : i.row ∈ opcodeTable) : Statement i := by
  refine ⟨?_, hr⟩
  rw [Row.Selects, hm, ht]
  exact (selects_set_n _).2 hw

theorem of_set_nn {i : Instr} {g : Nibble} {b : Byte} (hw : setOf (encodeWord i) = g ∧ nnOf (encodeWord i) = b)
    (hm : i.row.mask = 0xF0FF) (ht : i.row.mtch = packXNN g 0 b) (hr : i.row ∈ opcodeTable) : Statement i := by
  refine ⟨?_, hr⟩
  rw [Row.Selects, hm, ht]
  exact (selects_set_nn _).2 hw

theorem cls (x : Nibble) : Statement (.cls x) :=
  of_set_nn (g := 0x0) (b := 0xE0#8) (by simp [encodeWord]) rfl rfl (by simp [opcodeTable, Instr.row])

theorem ret (x : Nibble) : Statement (.ret x) :=
  of_set_nn (g := 0x0) (b := 0xEE#8) (by simp [encodeWord]) rfl rfl (by simp [opcodeTable, Instr.row])

theorem jp (nnn : Addr12) : Statement (.jp nnn) :=
  of_set (g := 0x1) (by simp [encodeWord]) rfl rfl (by simp [opcodeTable, Instr.row])

theorem call (nnn : Addr12) : Statement (.call nnn) :=
  of_set (g := 0x2) (by simp [encodeWord]) rfl rfl (by simp [opcodeTable, Instr.row])

theorem seImm (x : Nibble) (nn : Byte) : Statement (.seImm x nn) :=
  of_set (g := 0x3) (by simp [encodeWord]) rfl rfl (by simp [opcodeTable, Instr.row])

theorem sneImm (x : Nibble) (nn : Byte) : Statement (.sneImm x nn) :=
  of_set (g := 0x4) (by simp [encodeWord]) rfl rfl (by simp [opcodeTable, Instr.row])

theorem seReg (x y n : Nibble) : Statement (.seReg x y n) :=
  of_set (g := 0x5) (by simp [encodeWord]) rfl rfl (by simp [opcodeTable, Instr.row])

theorem ldImm (x : Nibble) (nn : Byte) : Statement (.ldImm x nn) :=
  of_set (g := 0x6) (by simp [encodeWord]) rfl rfl (by simp [opcodeTable, Instr.row])

theorem addImm (x : Nibble) (nn : Byte) : Statement (.addImm x nn) :=
  of_set (g := 0x7) (by simp [encodeWord]) rfl rfl (by simp [opcodeTable, Instr.row])

theorem ldReg (x y : Nibble) : Statement (.ldReg x y) :=
  of_set_n (g := 0x8) (k := 0x0) (by simp [encodeWord]) rfl rfl (by simp [opcodeTable, Instr.row])

theorem orReg (x y : Nibble) : Statement (.orReg x y) :=
  of_set_n (g := 0x8) (k := 0x1) (by simp [encodeWord]) rfl rfl (by simp [opcodeTable, Instr.row])

theorem andReg (x y : Nibble) : Statement (.andReg x y) :=
  of_set_n (g := 0x8) (k := 0x2) (by simp [encodeWord]) rfl rfl (by simp [opcodeTable, Instr.row])

theorem xorReg (x y : Nibble) : Statement (.xorReg x y) :=
  of_set_n (g := 0x8) (k := 0x3) (by simp [encodeWord]) rfl rfl (by simp [opcodeTable, Instr.row])

theorem addReg (x y : Nibble) : Statement (.addReg x y) :=
  of_set_n (g := 0x8) (k := 0x4) (by simp [encodeWord]) rfl rfl (by simp [opcodeTable, Instr.row])

theorem sub (x y : Nibble) : Statement (.sub x y) :=
  of_set_n (g := 0x8) (k := 0x5) (by simp [encodeWord]) rfl rfl (by simp [opcodeTable, Instr.row])

theorem shr (x y : Nibble) : Statement (.shr x y) :=
  of_set_n (g := 0x8) (k := 0x6) (by simp [encodeWord]) rfl rfl (by simp [opcodeTable, Instr.row])

theorem subn (x y : Nibble) : Statement (.subn x y) :=
  of_set_n (g := 0x8) (k := 0x7) (by simp [encodeWord]) rfl rfl (by simp [opcodeTable, Instr.row])

theorem shl (x y : Nibble) : Statement (.shl x y) :=
  of_set_n (g := 0x8) (k := 0xE) (by simp [encodeWord]) rfl rfl (by simp [opcodeTable, Instr.row])

theorem sneReg (x y n : Nibble) : Statement (.sneReg x y n) :=
  of_set (g := 0x9) (by simp [encodeWord]) rfl rfl (by simp [opcodeTable, Instr.row])

theorem ldI (nnn : Addr12) : Statement (.ldI nnn) :=
  of_set (g := 0xA) (by simp [encodeWord]) rfl rfl (by simp [opcodeTable, Instr.row])

theorem jpV0 (nnn : Addr12) : Statement (.jpV0 nnn) :=
  of_set (g := 0xB) (by simp [encodeWord]) rfl rfl (by simp [opcodeTable, Instr.row])

theorem rnd (x : Nibble) (nn : Byte) : Statement (.rnd x nn) :=
  of_set (g := 0xC) (by simp [encodeWord]) rfl rfl (by simp [opcodeTable, Instr.row])

theorem drw (x y n : Nibble) : Statement (.drw x y n) :=
  of_set (g := 0xD) (by simp [encodeWord]) rfl rfl (by simp [opcodeTable, Instr.row])

theorem skp (x : Nibble) : Statement (.skp x) :=
  of_set_nn (g := 0xE) (b := 0x9E#8) (by simp [encodeWord]) rfl rfl (by simp [opcodeTable, Instr.row])

theorem sknp (x : Nibble) : Statement (.sknp x) :=
  of_set_nn (g := 0xE) (b := 0xA1#8) (by simp [encodeWord]) rfl rfl (by simp [opcodeTable, Instr.row])

theorem ldVxDt (x : Nibble) : Statement (.ldVxDt x) :=
  of_set_nn (g := 0xF) (b := 0x07#8) (by simp [encodeWord]) rfl rfl (by simp [opcodeTable, Instr.row])

theorem ldK (x : Nibble) : Statement (.ldK x) :=
  of_set_nn (g := 0xF) (b := 0x0A#8) (by simp [encodeWord]) rfl rfl (by simp [opcodeTable, Instr.row])

theorem ldDtVx (x : Nibble) : Statement (.ldDtVx x) :=
  of_set_nn (g := 0xF) (b := 0x15#8) (by simp [encodeWord]) rfl rfl (by simp [opcodeTable, Instr.row])

theorem ldStVx (x : Nibble) : Statement (.ldStVx x) :=
  of_set_nn (g := 0xF) (b := 0x18#8) (by simp [encodeWord]) rfl rfl (by simp [opcodeTable, Instr.row])

theorem addIVx (x : Nibble) : Statement (.addIVx x) :=
  of_set_nn (g := 0xF) (b := 0x1E#8) (by simp [encodeWord]) rfl rfl (by simp [opcodeTable, Instr.row])

theorem ldFVx (x : Nibble) : Statement (.ldFVx x) :=
  of_set_nn (g := 0xF) (b := 0x29#8) (by simp [encodeWord]) rfl rfl (by simp [opcodeTable, Instr.row])

theorem ldBVx (x : Nibble) : Statement (.ldBVx x) :=
  of_set_nn (g := 0xF) (b := 0x33#8) (by simp [encodeWord]) rfl rfl (by simp [opcodeTable, Instr.row])

theorem ldMemVx (x : Nibble) : Statement (.ldMemVx x) :=
  of_set_nn (g := 0xF) (b := 0x55#8) (by simp [encodeWord]) rfl rfl (by simp [opcodeTable, Instr.row])

theorem ldVxMem (x : Nibble) : Statement (.ldVxMem x) :=
  of_set_nn (g := 0xF) (b := 0x65#8) (by simp [encodeWord]) rfl rfl (by simp [opcodeTable, Instr.row])

end Sys2Proof.Laws.RowWord
end

