-- ==== Sys2Proof/Laws/Registers.lean ====
section
/-! SUPPORT. The laws of FX55's and FX65's loops and of the operand forms they use: what each register and each byte is
after them, and that nothing else changes. -/

namespace Sys2Proof.Machine.State

variable (s : State)

/-- Any list of memory writes changes memory and nothing else. -/
theorem foldl_memWrite_eq (addr : Nat → Nat) (val : Nat → Byte) (ks : List Nat) :
    ks.foldl (fun t k => t.memWrite (addr k) (val k)) s =
      { s with mem := (ks.foldl (fun t k => t.memWrite (addr k) (val k)) s).mem } := by
  induction ks generalizing s with
  | nil => rfl
  | cons k ks ih => exact ih (s.memWrite (addr k) (val k))

theorem foldl_memWrite_wf (addr : Nat → Nat) (val : Nat → Byte) (ks : List Nat)
    (w : Memory.wf s.cfg s.mem = true) :
    Memory.wf (ks.foldl (fun t k => t.memWrite (addr k) (val k)) s).cfg
      (ks.foldl (fun t k => t.memWrite (addr k) (val k)) s).mem = true := by
  induction ks generalizing s with
  | nil => exact w
  | cons k ks ih => exact ih (s.memWrite (addr k) (val k)) (s.memWrite_wf w)

/-- A byte no write goes to reads as before. -/
theorem foldl_memWrite_outside (addr : Nat → Nat) (val : Nat → Byte) (ks : List Nat) (q : Nat)
    (h : ∀ k ∈ ks, reduceAddr (addr k) ≠ reduceAddr q) :
    (ks.foldl (fun t k => t.memWrite (addr k) (val k)) s).memRead q = s.memRead q := by
  induction ks generalizing s with
  | nil => rfl
  | cons k ks ih =>
    rw [List.foldl_cons, ih _ fun j hj => h j (by simp [hj]), memWrite_memRead, if_neg (h k (by simp))]

theorem dumpRegs_eq (x : Nibble) : s.dumpRegs x = { s with mem := (s.dumpRegs x).mem } :=
  s.foldl_memWrite_eq s.dumpAddr (fun k => s.getV (Fin.ofNat 16 k)) _

theorem dumpRegs_wf (x : Nibble) (w : Memory.wf s.cfg s.mem = true) :
    Memory.wf (s.dumpRegs x).cfg (s.dumpRegs x).mem = true :=
  s.foldl_memWrite_wf s.dumpAddr (fun k => s.getV (Fin.ofNat 16 k)) _ w

/-- The last write to an address is the byte it reads as: FX55's address form for `x` is written last. -/
theorem dumpRegs_succ_last (n : Nat) (q : Nat) :
    ((List.range (n + 1)).foldl (fun t k => t.memWrite (s.dumpAddr k) (s.getV (Fin.ofNat 16 k))) s).memRead q =
      if reduceAddr (s.dumpAddr n) = reduceAddr q then s.getV (Fin.ofNat 16 n)
      else ((List.range n).foldl (fun t k => t.memWrite (s.dumpAddr k) (s.getV (Fin.ofNat 16 k))) s).memRead q := by
  rw [List.range_succ, List.foldl_append, List.foldl_cons, List.foldl_nil, memWrite_memRead]

/-- FX65's loop changes the general registers and nothing else. -/
theorem loadRegs_eq (x : Nibble) : s.loadRegs x = { s with v := (s.loadRegs x).v } := by
  unfold loadRegs
  generalize List.range (x.val + 1) = ks
  suffices h : ∀ t : State, t = { s with v := t.v } →
      ks.foldl (fun t k => t.setV (Fin.ofNat 16 k) (s.memRead (s.atI k))) t =
        { s with v := (ks.foldl (fun t k => t.setV (Fin.ofNat 16 k) (s.memRead (s.atI k))) t).v } from h s rfl
  induction ks with
  | nil => exact fun t h => h
  | cons k ks ih =>
    intro t h
    refine ih (t.setV _ _) ?_
    rw [h]
    rfl

/-- After FX65's loop over the first `n` registers, those hold their bytes and the others are as before. -/
theorem foldl_setV_getV (val : Nat → Byte) (n : Nat) (hn : n ≤ 16) (r : Nibble) :
    ((List.range n).foldl (fun t k => t.setV (Fin.ofNat 16 k) (val k)) s).getV r =
      if r.val < n then val r.val else s.getV r := by
  induction n with
  | zero => simp
  | succ n ih =>
    rw [List.range_succ, List.foldl_append, List.foldl_cons, List.foldl_nil, setV_getV, ih (by omega)]
    by_cases h : r.val = n
    · subst h
      simp
    · have : r ≠ Fin.ofNat 16 n := fun e => h (by rw [e, Fin.val_ofNat, Nat.mod_eq_of_lt (by omega)])
      rw [if_neg this]
      by_cases h2 : r.val < n
      · rw [if_pos h2, if_pos (by omega)]
      · rw [if_neg h2, if_neg (by omega)]

theorem loadRegs_getV (x r : Nibble) :
    (s.loadRegs x).getV r = if r ≤ x then s.memRead (s.atI r.val) else s.getV r := by
  rw [loadRegs, foldl_setV_getV s _ _ (by omega)]
  simp only [Fin.le_def, Nat.lt_succ_iff]

/-! ## Operand forms -/

theorem pressed_iff (b : Byte) : s.pressed b = true ↔ ∃ k : Nibble, b.toNat = k.val ∧ s.keys[k.val] = true := by
  unfold pressed
  split
  · constructor
    · exact fun h => ⟨⟨b.toNat, ‹_›⟩, rfl, h⟩
    · rintro ⟨k, hk, h⟩
      simpa only [hk] using h
  · constructor
    · exact fun h => by cases h
    · rintro ⟨k, hk, -⟩
      omega

theorem mem_keysDown (k : Nibble) : k ∈ s.keysDown ↔ s.keys[k.val] = true := by
  simp [keysDown]

/-- The key FX0A picks is down. -/
theorem pickKey_mem {k : Nibble} (h : s.pickKey = some k) : s.keys[k.val] = true := by
  rw [← mem_keysDown]
  unfold pickKey at h
  split at h
  · exact List.mem_of_head? h
  · exact List.mem_of_getElem? h

/-- FX0A finds no key exactly when none is down. -/
theorem pickKey_eq_none : s.pickKey = none ↔ ∀ k : Nibble, s.keys[k.val] = false := by
  have empty : s.keysDown = [] ↔ ∀ k : Nibble, s.keys[k.val] = false := by
    simp [keysDown, List.filter_eq_nil_iff]
  rw [← empty]
  unfold pickKey
  split
  · exact List.head?_eq_none_iff
  · rw [List.getElem?_eq_none_iff]
    constructor
    · intro h
      by_contra hne
      exact absurd (Nat.mod_lt (Config.keyChoice s.keysDown) (List.length_pos_iff.2 hne)) (by omega)
    · intro h
      simp [h]

end Sys2Proof.Machine.State
end

