-- ==== Sys2Proof/Tests/Slice0.lean ====
section
/-! SUPPORT. The model's own tests: the well-formedness check, decoding, one or two steps per instruction, the host
commands, and for every statement with hypotheses a witness that meets them. Expected results come from spec/: the
tables of 95_test_vectors.md (named L<part>.<section>), the examples of the rules (named by R<n>), or the encoding
tables of 30_encoding.md. -/

namespace Sys2Proof.Tests

open Sys2Proof Sys2Proof.Machine

/-! ## Helpers -/

/-- The reset state with some general registers set. -/
def withRegs (rs : List (Nibble × Byte)) : State := rs.foldl (fun s p => s.setV p.1 p.2) State.reset

/-- `s` with `sp` entries on the call stack, each the value `a`. -/
def withStack (s : State) (sp : Fin 17) (a : Word) : State := { s with stack := Vector.replicate 16 a, sp := sp }

/-- `s` with the listed keys down. -/
def withKeys (s : State) (ks : List Nibble) : State :=
  ks.foldl (fun s k => { s with keys := s.keys.set k.val true }) s

/-- The state one STEP on the word `w` leads to. -/
def run (w : Nat) (s : State) : Option State :=
  match step (s.withFetchWord 16 w) with
  | .next t => some t
  | _ => none

/-- What `f` reads in the state one STEP on the word `w` leads to. -/
def see {α : Type} (f : State → α) (w : Nat) (s : State) : Option α := (run w s).map f

/-- A command sequence's state, from power-on with nothing known. -/
def power : State := State.reset.powerOn

/-! ## Well-formedness: an ignored field must be 0 (R96, R107) -/

theorem test_wf_refuses_cls : (Instr.cls 1).wellFormed = false := by decide
theorem test_wf_refuses_ret : (Instr.ret 0xF).wellFormed = false := by decide
theorem test_wf_refuses_seReg : (Instr.seReg 1 2 1).wellFormed = false := by decide
theorem test_wf_refuses_sneReg : (Instr.sneReg 1 2 0xF).wellFormed = false := by decide
theorem test_wf_refuses_shr : (Instr.shr 3 1).wellFormed = false := by decide
theorem test_wf_refuses_shl : (Instr.shl 3 8).wellFormed = false := by decide
theorem test_wf_accepts : ([.cls 0, .ret 0, .seReg 1 2 0, .shr 3 0, .shl 3 0, .drw 1 2 15] : List Instr).all
    Instr.wellFormed = true := by decide

/-! ## Decoding: one word per constructor, written out from R93's formats and R97's table -/

theorem test_decode_cls : decodeWord 0b0000010111100000 = .ok (.cls 5) := by decide
theorem test_decode_ret : decodeWord 0b0000111111101110 = .ok (.ret 0xF) := by decide
theorem test_decode_jp : decodeWord 0b0001001000110100 = .ok (.jp 0x234) := by decide
theorem test_decode_call : decodeWord 0b0010101010111100 = .ok (.call 0xABC) := by decide
theorem test_decode_seImm : decodeWord 0b0011001001000010 = .ok (.seImm 2 0x42) := by decide
theorem test_decode_sneImm : decodeWord 0b0100001001000010 = .ok (.sneImm 2 0x42) := by decide
theorem test_decode_seReg : decodeWord 0b0101000100101111 = .ok (.seReg 1 2 0xF) := by decide
theorem test_decode_ldImm : decodeWord 0b0110111110101010 = .ok (.ldImm 0xF 0xAA) := by decide
theorem test_decode_addImm : decodeWord 0b0111101000010000 = .ok (.addImm 0xA 0x10) := by decide
theorem test_decode_ldReg : decodeWord 0b1000001101000000 = .ok (.ldReg 3 4) := by decide
theorem test_decode_orReg : decodeWord 0b1000000100100001 = .ok (.orReg 1 2) := by decide
theorem test_decode_andReg : decodeWord 0b1000000100100010 = .ok (.andReg 1 2) := by decide
theorem test_decode_xorReg : decodeWord 0b1000000100100011 = .ok (.xorReg 1 2) := by decide
theorem test_decode_addReg : decodeWord 0b1000101010110100 = .ok (.addReg 0xA 0xB) := by decide
theorem test_decode_sub : decodeWord 0b1000000100100101 = .ok (.sub 1 2) := by decide
theorem test_decode_shr : decodeWord 0b1000001100000110 = .ok (.shr 3 0) := by decide
theorem test_decode_subn : decodeWord 0b1000000100100111 = .ok (.subn 1 2) := by decide
theorem test_decode_shl : decodeWord 0b1000001110011110 = .ok (.shl 3 9) := by decide
theorem test_decode_sneReg : decodeWord 0b1001000000010000 = .ok (.sneReg 0 1 0) := by decide
theorem test_decode_ldI : decodeWord 0b1010001000000000 = .ok (.ldI 0x200) := by decide
theorem test_decode_jpV0 : decodeWord 0b1011001100000000 = .ok (.jpV0 0x300) := by decide
theorem test_decode_rnd : decodeWord 0b1100001100001111 = .ok (.rnd 3 0x0F) := by decide
theorem test_decode_drw : decodeWord 0b1101000100101111 = .ok (.drw 1 2 15) := by decide
theorem test_decode_skp : decodeWord 0b1110000110011110 = .ok (.skp 1) := by decide
theorem test_decode_sknp : decodeWord 0b1110000110100001 = .ok (.sknp 1) := by decide
theorem test_decode_ldVxDt : decodeWord 0b1111001100000111 = .ok (.ldVxDt 3) := by decide
theorem test_decode_ldK : decodeWord 0b1111010100001010 = .ok (.ldK 5) := by decide
theorem test_decode_ldDtVx : decodeWord 0b1111001100010101 = .ok (.ldDtVx 3) := by decide
theorem test_decode_ldStVx : decodeWord 0b1111001000011000 = .ok (.ldStVx 2) := by decide
theorem test_decode_addIVx : decodeWord 0b1111000000011110 = .ok (.addIVx 0) := by decide
theorem test_decode_ldFVx : decodeWord 0b1111010000101001 = .ok (.ldFVx 4) := by decide
theorem test_decode_ldBVx : decodeWord 0b1111000000110011 = .ok (.ldBVx 0) := by decide
theorem test_decode_ldMemVx : decodeWord 0b1111001001010101 = .ok (.ldMemVx 2) := by decide
theorem test_decode_ldVxMem : decodeWord 0b1111001001100101 = .ok (.ldVxMem 2) := by decide

/-- The words of L2.1 that no row matches, each refused by its own name. -/
theorem test_decode_invalid :
    [0x0000, 0x0123, 0x00E1, 0x8008, 0x800F, 0xE19F, 0xF000, 0xF0FF, 0xF075].map decodeWord =
      [.error (.invalidSet0 0x00), .error (.invalidSet0 0x23), .error (.invalidSet0 0xE1), .error (.invalidSet8 8),
        .error (.invalidSet8 15), .error (.invalidSetE 0x9F), .error (.invalidSetF 0x00),
        .error (.invalidSetF 0xFF), .error (.invalidSetF 0x75)] := by decide

/-- No instruction is read off fewer than two bytes (R92). -/
theorem test_decode_truncated : (decode [], decode [0x60]) = (.error .truncated, .error .truncated) := by decide

/-- The rows of R97 are mutually exclusive: two of them never agree on the bits both look at. -/
theorem test_rows_exclusive :
    opcodeTable.Pairwise fun r q => r.mtch &&& (r.mask &&& q.mask) ≠ q.mtch &&& (r.mask &&& q.mask) := by decide

/-- There are 34 rows (R102). -/
theorem test_rows_count : opcodeTable.length = 34 := by decide

/-- Every row's own word decodes and is the first instruction after reset (the host's view of a word). -/
theorem test_host_words : (opcodeTable.map fun r => r.mtch.toNat).all
    (fun w => (decodeTableWord 16 w).isSome && (run w State.reset).isSome) = true := by decide

/-! ## STEP (L2.1) -/

/-- An invalid word: recorded with its address, pc at a + 2 (R125). -/
theorem test_step_invalid : see (fun t => (t.pc, t.faults)) 0x8008 State.reset =
    some (0x202, [.invalidInstruction 0x200 0x8008]) := by decide

/-- A fetch at 0xFFF takes its low byte from 0x000 (R68): mem[0xFFF] = 0x12 and the font's 0xF0 are JP 0x2F0. -/
theorem test_step_wraps : (match step ((State.reset.memWrite 0xFFF 0x12).setPc 0xFFF) with
    | .next t => some t.pc | _ => none) = some 0x2F0 := by decide

/-! ## Control transfer (L2.2, L1.6) -/

theorem test_ret : see (fun t => (t.pc, t.sp)) 0x0FEE (withStack State.reset 1 0x206) = some (0x206, 0) := by decide
theorem test_ret_empty : see (fun t => (t.pc, t.faults)) 0x00EE State.reset =
    some (0x202, [.stackUnderflow 0x200 0x00EE]) := by decide
theorem test_jp : see State.pc 0x1FFF State.reset = some 0xFFF := by decide
theorem test_call : see (fun t => (t.pc, t.sp, t.stack[15])) 0x2ABC (withStack State.reset 15 0) =
    some (0xABC, 16, 0x202) := by decide
theorem test_call_full : see (fun t => (t.pc, t.sp, t.faults)) 0x2ABC (withStack State.reset 16 0) =
    some (0x202, 16, [.stackOverflow 0x200 0x2ABC]) := by decide
theorem test_seImm : (see State.pc 0x3242 (withRegs [(2, 0x42)]), see State.pc 0x3242 (withRegs [(2, 0x41)])) =
    (some 0x204, some 0x202) := by decide
theorem test_sneImm : (see State.pc 0x4242 (withRegs [(2, 0x41)]), see State.pc 0x4242 (withRegs [(2, 0x42)])) =
    (some 0x204, some 0x202) := by decide
theorem test_seReg : (see State.pc 0x512F (withRegs [(1, 4), (2, 4)]),
    see State.pc 0x5010 (withRegs [(0, 5), (1, 6)])) = (some 0x204, some 0x202) := by decide
theorem test_sneReg : (see State.pc 0x9120 (withRegs [(1, 4), (2, 5)]), see State.pc 0x9110 (withRegs [(1, 4)])) =
    (some 0x204, some 0x202) := by decide
theorem test_jpV0 : see State.pc 0xBFFF (withRegs [(0, 0xFF)]) = some 0x10FE := by decide

/-! ## Register and immediate (L2.3, L1.9) -/

theorem test_ldImm : see (fun t => (t.getV 15, t.pc)) 0x6FAA State.reset = some (0xAA, 0x202) := by decide
theorem test_addImm : see (fun t => (t.getV 0, t.getV 15)) 0x70FF (withRegs [(0, 1)]) = some (0, 0) := by decide
theorem test_addImm_reference : see (State.getV · 0) 0x7001
    { withRegs [(0, 0xFF)] with cfg := { Config.hardware with addImm := .reference } } = some 1 := by decide
theorem test_ldI : see State.i 0xA000 (State.reset.setI 0x1234) = some 0 := by decide
theorem test_rnd : ((rndWith 0xB7 3 0x0F State.reset).getV 3, (rndWith 0xA6 15 0x0F (withRegs [(15, 1)])).getV 15) =
    (0x07, 0x06) := by decide

/-! ## Arithmetic and logic (L2.4) -/

theorem test_ldReg : see (State.getV · 0) 0x8010 (withRegs [(0, 1), (1, 0xEE)]) = some 0xEE := by decide
theorem test_orReg : see (fun t => (t.getV 0, t.getV 15)) 0x8011
    (withRegs [(0, 0x55), (1, 0xAA), (15, 1)]) = some (0xFF, 1) := by decide
theorem test_andReg : see (State.getV · 1) 0x8122 (withRegs [(1, 0x3C), (2, 0x0F)]) = some 0x0C := by decide
theorem test_xorReg : see (State.getV · 1) 0x8123 (withRegs [(1, 0x3C), (2, 0x0F)]) = some 0x33 := by decide
theorem test_addReg : see (fun t => (t.getV 0, t.getV 15)) 0x80F4
    (withRegs [(0, 0xFF), (15, 1)]) = some (0, 1) := by decide
theorem test_addReg_flag : see (State.getV · 15) 0x8F04 (withRegs [(15, 0xFF), (0, 1)]) = some 1 := by decide
theorem test_sub : see (fun t => (t.getV 0, t.getV 15)) 0x8015 (withRegs [(0, 4), (1, 5)]) = some (0xFF, 0) := by decide
theorem test_sub_equal : see (fun t => (t.getV 0, t.getV 15)) 0x8015
    (withRegs [(0, 5), (1, 5)]) = some (0, 1) := by decide
theorem test_shr : see (fun t => (t.getV 0, t.getV 15)) 0x8006 (withRegs [(0, 1)]) = some (0, 1) := by decide
theorem test_shr_flag : see (State.getV · 15) 0x8F06 (withRegs [(15, 3)]) = some 1 := by decide
theorem test_subn : see (fun t => (t.getV 0, t.getV 15)) 0x8017
    (withRegs [(0, 5), (1, 4)]) = some (0xFF, 0) := by decide
theorem test_subn_equal : see (fun t => (t.getV 0, t.getV 15)) 0x8007 (withRegs [(0, 0x37)]) = some (0, 1) := by decide
theorem test_shl : see (fun t => (t.getV 0, t.getV 15)) 0x800E (withRegs [(0, 0x81)]) = some (2, 1) := by decide
theorem test_shl_maskA0 : see (State.getV · 15) 0x800E
    { withRegs [(0, 0x20)] with cfg := { Config.hardware with shlMask := .maskA0 } } = some 1 := by decide

/-! ## Display (L2.5) -/

/-- The state of L2.5's first D011 vectors: x[0] = 10, x[1] = 5, I = 0x300, mem[0x300] = 0x80. -/
def dotState : State := ((withRegs [(0, 10), (1, 5)]).setI 0x300).memWrite 0x300 0x80

theorem test_cls : see (fun t => (t.fb, t.redraw)) 0x00E0 { State.reset with fb := Grid.blank.setPx 1 1 true } =
    some (Grid.blank, true) := by decide
theorem test_drw : see (fun t => (t.fb.px 10 5, t.fb.px 11 5, t.pend.px 10 5, t.pend.px 17 5, t.getV 15)) 0xD011
    dotState = some (true, false, false, true, 0) := by decide +kernel
theorem test_drw_collides : see (fun t => (t.fb.px 10 5, t.pend.px 10 5, t.getV 15, t.redraw)) 0xD011
    { dotState with fb := Grid.blank.setPx 10 5 true } = some (true, true, 1, true) := by decide +kernel

/-! ## Keypad (L2.6, L1.6) -/

theorem test_skp : (see State.pc 0xE09E (withKeys (withRegs [(0, 3)]) [3]), see State.pc 0xE09E (withRegs [(0, 3)])) =
    (some 0x204, some 0x202) := by decide
theorem test_skp_high : see State.pc 0xE09E (withKeys (withRegs [(0, 0x10)]) [0]) = some 0x202 := by decide
theorem test_sknp : (see State.pc 0xE0A1 (withKeys (withRegs [(0, 3)]) [3]),
    see State.pc 0xE0A1 (withKeys (withRegs [(0, 0x10)]) [0])) = (some 0x202, some 0x204) := by decide
theorem test_ldK : see (fun t => (t.getV 5, t.pc)) 0xF50A (withKeys State.reset [9, 4, 12]) = some (4, 0x202) := by
  decide
theorem test_ldK_waits : see State.pc 0xF50A State.reset = some 0x200 := by decide

/-! ## Miscellaneous (L2.7) -/

theorem test_ldVxDt : see (State.getV · 3) 0xF307 (State.reset.setDt 0x3C) = some 0x3C := by decide
theorem test_ldDtVx : see State.dt 0xF015 (State.reset.setDt 5) = some 0 := by decide
theorem test_ldStVx : see State.out 0xF218 (withRegs [(2, 0x0A)]) = some [.beep 0x0A] := by decide
theorem test_ldStVx_zero : see State.out 0xF018 State.reset = some [.beep 0] := by decide
theorem test_addIVx : see (fun t => (t.i, t.getV 15)) 0xF01E ((withRegs [(0, 1)]).setI 0xFFFF) = some (0, 0) := by
  decide
theorem test_ldFVx : (see State.i 0xF029 (withRegs [(0, 0x0F)]), see State.i 0xF029 (withRegs [(0, 0xFF)])) =
    (some 0x4B, some 0x4FB) := by decide
theorem test_ldBVx : see (fun t => (t.memRead 0x300, t.memRead 0x301, t.memRead 0x302)) 0xF033
    ((withRegs [(0, 255)]).setI 0x300) = some (2, 5, 5) := by decide
theorem test_ldBVx_wraps : see (fun t => (t.memRead 0xFFE, t.memRead 0xFFF, t.memRead 0, t.i)) 0xF033
    ((withRegs [(0, 100)]).setI 0xFFE) = some (1, 0, 0, 0xFFE) := by decide
theorem test_ldMemVx : see (fun t => (t.memRead 0x300, t.memRead 0x301, t.memRead 0x302, t.i)) 0xF255
    ((withRegs [(0, 1), (1, 2), (2, 3)]).setI 0x300) = some (1, 2, 3, 0x300) := by decide
theorem test_ldMemVx_reference : see (fun t => (t.memRead 0x400, t.memRead 0x401)) 0xF155
    { (withRegs [(0, 0xAA), (1, 0xBB)]).setI 0x400 with cfg := { Config.hardware with dumpAddr := .reference } } =
      some (0, 0xBB) := by decide
theorem test_ldVxMem : see (fun t => (t.getV 0, t.getV 5, t.getV 15)) 0xFF65 State.reset =
    some (0xF0, 0x20, 0xF0) := by decide
theorem test_ldVxMem_wraps : see (fun t => (t.getV 0, t.getV 1, t.getV 2)) 0xF265
    (((((State.reset.memWrite 0xFFF 9).memWrite 0 8).memWrite 1 7)).setI 0xFFF) = some (9, 8, 7) := by decide

/-! ## Host commands (L2.6, L2.8) -/

theorem test_tick : ((command .tick (State.reset.setDt 2)).state.dt, (command .tick (State.reset.setDt 2)).events) =
    (1, []) := by decide
theorem test_tick_presents : (command .tick { State.reset with redraw := true }).events = [.present Grid.blank] := by
  decide
theorem test_refused : ((command .tick power).outcome, (command .step power).outcome) = (.refused, .refused) := by
  decide
theorem test_load_step : (runCommands [.load [0x60, 0x2A], .step] power).getV 0 = 0x2A := by decide
theorem test_key_down : ((command (.keyDown 3) State.reset).state.keys[3],
    (command (.keyDown 16) State.reset).outcome) = (true, .error (.keyCodeOutOfRange 16)) := by decide
theorem test_key_up : ((command (.keyUp 3) (withKeys State.reset [3])).state.keys[3],
    (command (.keyUp 0xFF) State.reset).outcome) = (false, .error (.keyCodeOutOfRange 0xFF)) := by decide
theorem test_reset_keeps_keys : (command .reset (withKeys State.reset [2])).state = withKeys State.reset [2] := by
  decide

/-- The error codes of R250. -/
theorem test_fault_codes : [Fault.invalidInstruction 0 0, .stackOverflow 0 0, .stackUnderflow 0 0, .programTooLarge 0,
    .keyCodeOutOfRange 0].map Fault.code = [1, 2, 3, 4, 5] := by decide

/-- Glyph F stands at 0x04B and the byte after the font is 0 (R66, R50). -/
theorem test_font : [0x04B, 0x04C, 0x04D, 0x04E, 0x04F, 0x050].map State.reset.memRead =
    [0xF0, 0x80, 0xF0, 0x80, 0x80, 0x00] := by decide

/-- A write keeps the canonical form, and writing the reset value takes the entry off again. -/
theorem test_memory_canonical : (((State.reset.memWrite 0x301 2).memWrite 0x300 1).mem,
    ((State.reset.memWrite 0x300 1).memWrite 0x1300 0).mem) = ([(0x300, 1), (0x301, 2)], []) := by decide

/-! ## Witnesses: states and operands that meet a statement's hypotheses, clause by clause at the boundaries -/

/-- Every mask condition of the instruction statements is met by a word: each row's words with every operand bit set
(a row's operand bits are those its mask leaves out). -/
theorem witness_mask_conditions : opcodeTable.all (fun r => (r.mtch ||| ~~~r.mask) &&& r.mask == r.mtch) = true := by
  decide

theorem witness_OpcodeMapSelectsInstruction : (Instr.call 0).row ∈ opcodeTable ∧
    (Instr.call 0).row.Selects 0x2ABC ∧ decodeWord 0x2ABC = .ok (.call 0xABC) := by decide

theorem witness_InvalidWordsAreTheUnmatchedSelectors :
    (setOf 0x00E1 = 0x0 ∧ nnOf 0x00E1 ∉ ([0xE0, 0xEE] : List Byte) ∧
      decodeWord 0x00E1 = .error (.invalidSet0 0xE1)) ∧
    (setOf 0x800F = 0x8 ∧ nOf 0x800F = 15 ∧ decodeWord 0x800F = .error (.invalidSet8 15)) ∧
    (setOf 0xE09F = 0xE ∧ decodeWord 0xE09F = .error (.invalidSetE 0x9F)) ∧
    (setOf 0xF066 = 0xF ∧ decodeWord 0xF066 = .error (.invalidSetF 0x66)) := by decide

theorem witness_IgnoredFieldsDoNotMatter : 0 < (withStack State.reset 1 0x206).sp.val ∧
    ∃ t u, exec (.ret 0) State.reset = .next t ∧ exec (.ret 15) State.reset = .next u ∧ t.faults ≠ u.faults :=
  ⟨by decide, _, _, rfl, rfl, by decide⟩

theorem witness_StepRunsDecodedInstruction : State.reset.booted = true ∧
    decodeWord (State.reset.withFetchWord 16 0x1234).fetchWord = .ok (.jp 0x234) ∧
    decodeWord State.reset.fetchWord = .error (.invalidSet0 0) := by decide

theorem witness_InvalidWordRecordsErrorAndAdvances : State.reset.booted = true ∧
    decodeWord (State.reset.setPc 0xFFFE).fetchWord = .error (.invalidSet0 0) := by decide

theorem witness_MemoryReadsBackWrites : (State.reset.memWrite 0x300 1).Inv ∧ (State.reset.memWrite 0x1300 1).Inv ∧
    (State.reset.memWrite 0x1300 1).mem = (State.reset.memWrite 0x300 1).mem ∧ 0x1300 % 4096 = 0x300 % 4096 ∧
    ¬ 0x1301 % 4096 = 0x300 % 4096 :=
  ⟨by unfold State.Inv; decide, by unfold State.Inv; decide, by decide, by decide, by decide⟩

theorem witness_RefusedUntilBooted : power.booted = false ∧ 3584 < (List.replicate 3585 (0 : Byte)).length ∧
    (List.replicate 3584 (0 : Byte)).length ≤ 3584 :=
  ⟨rfl, Nat.le_of_eq List.length_replicate.symm, Nat.le_of_eq List.length_replicate⟩

theorem witness_CallPushesAndJumps : (withStack State.reset 15 0).sp.val < 16 ∧
    (withStack State.reset 16 0).sp.val = 16 := by decide

theorem witness_ReturnPopsPc : 0 < (withStack State.reset 16 0).sp.val ∧ 0 < (withStack State.reset 1 0).sp.val ∧
    State.reset.sp.val = 0 := by decide

theorem witness_StackErrorsRecordTheFetchedWord :
    (decodeWord ((withStack State.reset 16 0).withFetchWord 16 0x2ABC).fetchWord = .ok (.call 0xABC) ∧
      ((withStack State.reset 16 0).withFetchWord 16 0x2ABC).sp.val = 16 ∧
      ((withStack State.reset 16 0).withFetchWord 16 0x2ABC).booted = true) ∧
    decodeWord (State.reset.withFetchWord 16 0x03EE).fetchWord = .ok (.ret 3) ∧
    (State.reset.withFetchWord 16 0x03EE).sp.val = 0 := by decide

theorem witness_ReturnUndoesCall : (withStack State.reset 15 0).sp.val < 16 ∧
    ∃ t, exec (.call 0x300) (withStack State.reset 15 0) = .next t ∧ (t.setI 7).stack = t.stack ∧
      (t.setI 7).sp = t.sp :=
  ⟨by decide, _, rfl, rfl, rfl⟩

theorem witness_AddImmediateWritesVx : State.reset.cfg.addImm = .standard ∧
    ({ State.reset with cfg := { Config.hardware with addImm := .reference } } : State).cfg.addImm = .reference ∧
    255 < (0xFF : Byte).toNat + (0x01 : Byte).toNat ∧ ¬ 255 < (0xFE : Byte).toNat + (0x01 : Byte).toNat := by decide

theorem witness_vx_is_not_vf : (14 : Nibble) ≠ 15 := by decide

theorem witness_ShiftLeftSetsHighBit : State.reset.cfg.shlMask = .mask80 ∧
    ({ State.reset with cfg := { Config.hardware with shlMask := .maskA0 } } : State).cfg.shlMask = .maskA0 := by decide

theorem witness_SubnFlagVariantsAgree : ∃ t, exec (.subn 15 1) State.reset = .next t := ⟨_, rfl⟩

theorem witness_DrawFlushesThenXorsSprite : (withRegs [(0, 62), (1, 31)]).lands 0 1 2 1 7 5 0 ∧
    (withRegs [(0, 62), (1, 31)]).lands 0 1 2 0 0 62 31 ∧ ¬ (withRegs [(0, 62), (1, 31)]).boxed 0 1 1 61 31 := by
  refine ⟨by unfold State.lands; decide, by unfold State.lands; decide, ?_⟩
  rintro ⟨row, bit, -, hb, hc, -⟩
  have : ((withRegs [(0, 62), (1, 31)]).getV 0).toNat = 62 := by decide
  have : (61 : Col).val = 61 := rfl
  omega

theorem witness_DrawXorsLogicalDisplay : (∃ t, exec (.drw 0 1 1) dotState = .next t) ∧
    ∃ t, exec (.cls 0) dotState = .next t := ⟨⟨_, rfl⟩, _, rfl⟩

theorem witness_DrawOrderCannotMatter : (dotState.sprite 0 1 2).reverse.Perm (dotState.sprite 0 1 2) ∧
    (dotState.sprite 0 1 2).length = 16 := ⟨List.reverse_perm _, by decide⟩

theorem witness_KeySkips : (∃ k : Nibble, ((withRegs [(0, 15)]).getV 0).toNat = k.val ∧
      (withKeys (withRegs [(0, 15)]) [15]).keys[k.val] = true) ∧
    ∀ k : Nibble, ((withRegs [(0, 16)]).getV 0).toNat = k.val → (withRegs [(0, 16)]).keys[k.val] = false := by
  decide

theorem witness_KeyWaitRefetchesOrPicks : (∀ k : Nibble, State.reset.keys[k.val] = false) ∧
    (∃ k : Nibble, (withKeys State.reset [15]).keys[k.val] = true) ∧ State.reset.cfg.keyPick = .lowest := by decide

theorem witness_KeyCommandsChangeOneKey : (15 : Byte).toNat < 16 ∧ 15 < (16 : Byte).toNat := by decide

theorem witness_DumpStoresRegisters : State.reset.cfg.dumpAddr = .indexed ∧ (0 : Nibble) ≤ 0 ∧ (15 : Nibble) ≤ 15 ∧
    ({ State.reset with cfg := { Config.hardware with dumpAddr := .reference } } : State).cfg.dumpAddr = .reference := by
  decide

theorem witness_DumpThenLoadRestores : ∃ t, exec (.ldMemVx 3) (State.reset.setI 0xFFE) = .next t ∧
    (t.setV 0 7).i = t.i ∧ ∀ k ≤ 3, (t.setV 0 7).memRead (0xFFE + k) = t.memRead (0xFFE + k) :=
  ⟨_, rfl, rfl, fun _ _ => rfl⟩

theorem witness_FetchSeesStoredInstruction : (State.reset.setI 0x1200).cfg.dumpAddr = .indexed ∧
    (State.reset.setI 0x1200).i.toNat % 4096 = (State.reset.setI 0x1200).pc.toNat % 4096 ∧
    ∃ t, exec (.ldMemVx 1) (State.reset.setI 0x1200) = .next t := ⟨rfl, by decide, _, rfl⟩

theorem witness_OnlyNamedRegistersAreWritten : (∃ t, exec (.addReg 1 2) State.reset = .next t) ∧
    ¬ mayWriteReg 0 (.addReg 1 2) ∧ ¬ mayWriteReg 3 (.ldVxMem 2) :=
  ⟨⟨_, rfl⟩, by unfold mayWriteReg; decide, by unfold mayWriteReg; decide⟩

theorem witness_OnlyNamedInstructionsWriteState : ∃ t, exec (.cls 0) { State.reset with redraw := true } = .next t :=
  ⟨_, rfl⟩

theorem witness_EventsComeFromTickAndBeep : (State.reset.withFetchWord 16 0xF218).booted = true ∧
    decodeWord (State.reset.withFetchWord 16 0xF218).fetchWord = .ok (.ldStVx 2) ∧
    ∀ x, decodeWord State.reset.fetchWord ≠ .ok (.ldStVx x) := by decide

theorem witness_FaultRecordGrowsByTheOutcome : (State.reset.raise (.programTooLarge 3585)).faulted = true := by decide

theorem witness_TickDecrementsTimer : State.reset.booted = true ∧ power.booted = false ∧ ¬ State.reset.dt.toNat ≠ 0 ∧
    (State.reset.setDt 1).dt.toNat ≠ 0 := by decide

theorem witness_TimerReachesZeroAfterItsTicks : (State.reset.setDt 255).booted = true ∧
    ¬ (State.reset.setDt 255).dt.toNat ≤ 254 ∧ (State.reset.setDt 255).dt.toNat ≤ 255 := by decide

theorem witness_ResetInstallsItsValues : 79 < 80 ∧ 80 ≤ 80 ∧ 4095 < 4096 := by decide

theorem witness_LoadResetsThenCopies : (List.replicate 3584 (1 : Byte)).length ≤ 3584 ∧
    3583 < (List.replicate 3584 (1 : Byte)).length ∧ ([] : List Byte).length ≤ 3584 ∧
    0x200 + ([] : List Byte).length ≤ 0x200 :=
  ⟨Nat.le_of_eq List.length_replicate, Nat.le_of_eq List.length_replicate.symm, by decide, by decide⟩

theorem witness_TooLargeLoadChangesNothing : 3584 < (List.replicate 3585 (0 : Byte)).length ∧
    (List.replicate 3584 (0 : Byte)).length = 3584 :=
  ⟨Nat.le_of_eq List.length_replicate.symm, List.length_replicate⟩

theorem witness_FirstStepRunsTheLoadedWord : (List.replicate 3582 (0 : Byte)).length + 2 ≤ 3584 ∧
    decodeWord ((0x60 : Byte) ++ (0x2A : Byte)) = .ok (.ldImm 0 0x2A) :=
  ⟨Nat.add_le_add_right (Nat.le_of_eq List.length_replicate) 2, by decide⟩

theorem witness_StepKeepsInvariant : (State.reset.withFetchWord 16 0xF033).Inv ∧
    (run 0xF033 (withRegs [(0, 255)])).isSome = true := ⟨by unfold State.Inv; decide, by decide⟩

theorem witness_CommandsKeepInvariant : (State.reset.memWrite 0x300 1).Inv ∧
    Reaches State.reset (runCommands [.load [0x12, 0x00], .step, .tick, .keyDown 3] State.reset) :=
  ⟨by unfold State.Inv; decide, _, rfl⟩

end Sys2Proof.Tests
end

section
/-! PROOFS. The decoder against the spec's own reading of a word (spec/30_encoding.md R91, R97). The one idea for R97:
an instruction's row and a word's fields determine what the word decodes to (`decodeWord_of_selects`), and a decoded
instruction's own word is the word it was decoded from (`encodeWord_of_decodeWord`). -/

namespace Sys2Proof

/-! ## Shifts and masks as numbers -/

theorem word_shiftRight_toNat (w : Word) (k : Nat) : (w >>> k).toNat = w.toNat / 2 ^ k := by
  rw [BitVec.toNat_ushiftRight, Nat.shiftRight_eq_div_pow]

/-- A mask of the word's `k` low bits is a remainder. -/
theorem word_and_lowMask_toNat (w : Word) {k : Nat} (hk : k ≤ 16) :
    (w &&& BitVec.ofNat 16 (2 ^ k - 1)).toNat = w.toNat % 2 ^ k := by
  have hpow : 2 ^ k ≤ 2 ^ 16 := Nat.pow_le_pow_right (by decide) hk
  have hpos : 0 < 2 ^ k := Nat.two_pow_pos k
  rw [BitVec.toNat_and, BitVec.toNat_ofNat, Nat.mod_eq_of_lt (by omega), Nat.and_two_pow_sub_one_eq_mod]

/-- A nibble of the word, as the spec writes it: shift it down, then mask it. -/
theorem word_shiftRight_and_15_toNat (w : Word) (k : Nat) : ((w >>> k) &&& 0x0F).toNat = w.toNat / 2 ^ k % 2 ^ 4 := by
  rw [← word_shiftRight_toNat]
  exact word_and_lowMask_toNat (w >>> k) (k := 4) (by decide)

/-- Settles O1: each field and its shift-and-mask are the same number. -/
theorem decoderFieldsAreShiftsAndMasks : Obligations.DecoderFieldsAreShiftsAndMasks := by
  intro w
  have hset := setOf_val w
  have hnnn := nnnOf_toNat w
  have hnn := nnOf_toNat w
  have hn := nOf_val w
  have hx := xOf_val w
  have hy := yOf_val w
  refine ⟨?_, ?_, ?_, ?_, ?_, ?_, ?_, ?_⟩
  · exact hset.trans (word_shiftRight_toNat w 12).symm
  · exact hnnn.trans (word_and_lowMask_toNat w (k := 12) (by decide)).symm
  · exact hnn.trans (word_and_lowMask_toNat w (k := 8) (by decide)).symm
  · exact hn.trans (word_and_lowMask_toNat w (k := 4) (by decide)).symm
  · exact hx.trans (word_shiftRight_and_15_toNat w 8).symm
  · exact hy.trans (word_shiftRight_and_15_toNat w 4).symm
  · change (nnOf w).toNat = 16 * (yOf w).val + (nOf w).val
    omega
  · change (nnnOf w).toNat = 256 * (xOf w).val + (nnOf w).toNat
    omega

/-! ## A row and a word's fields determine the instruction (R97) -/

/-- The instruction of the same row as the given one, its operands the fields of the word. -/
def Instr.withFieldsOf (w : Word) : Instr → Instr
  | .cls _ => .cls (xOf w)
  | .ret _ => .ret (xOf w)
  | .jp _ => .jp (nnnOf w)
  | .call _ => .call (nnnOf w)
  | .seImm _ _ => .seImm (xOf w) (nnOf w)
  | .sneImm _ _ => .sneImm (xOf w) (nnOf w)
  | .seReg _ _ _ => .seReg (xOf w) (yOf w) (nOf w)
  | .ldImm _ _ => .ldImm (xOf w) (nnOf w)
  | .addImm _ _ => .addImm (xOf w) (nnOf w)
  | .ldReg _ _ => .ldReg (xOf w) (yOf w)
  | .orReg _ _ => .orReg (xOf w) (yOf w)
  | .andReg _ _ => .andReg (xOf w) (yOf w)
  | .xorReg _ _ => .xorReg (xOf w) (yOf w)
  | .addReg _ _ => .addReg (xOf w) (yOf w)
  | .sub _ _ => .sub (xOf w) (yOf w)
  | .shr _ _ => .shr (xOf w) (yOf w)
  | .subn _ _ => .subn (xOf w) (yOf w)
  | .shl _ _ => .shl (xOf w) (yOf w)
  | .sneReg _ _ _ => .sneReg (xOf w) (yOf w) (nOf w)
  | .ldI _ => .ldI (nnnOf w)
  | .jpV0 _ => .jpV0 (nnnOf w)
  | .rnd _ _ => .rnd (xOf w) (nnOf w)
  | .drw _ _ _ => .drw (xOf w) (yOf w) (nOf w)
  | .skp _ => .skp (xOf w)
  | .sknp _ => .sknp (xOf w)
  | .ldVxDt _ => .ldVxDt (xOf w)
  | .ldK _ => .ldK (xOf w)
  | .ldDtVx _ => .ldDtVx (xOf w)
  | .ldStVx _ => .ldStVx (xOf w)
  | .addIVx _ => .addIVx (xOf w)
  | .ldFVx _ => .ldFVx (xOf w)
  | .ldBVx _ => .ldBVx (xOf w)
  | .ldMemVx _ => .ldMemVx (xOf w)
  | .ldVxMem _ => .ldVxMem (xOf w)

@[simp] theorem Instr.row_withFieldsOf (w : Word) (i : Instr) : (i.withFieldsOf w).row = i.row := by
  cases i <;> rfl

section
variable {w : Word}

/-- In Set 0x0 a word decodes by its selector NN (R98). -/
theorem decodeWord_eq_decodeSet0 (nn : Byte) (h : w &&& 0xF0FF = packXNN 0x0 0 nn) :
    decodeWord w = decodeSet0 { fieldsOf w with nn := nn } := by
  obtain ⟨hset, rfl⟩ := (selects_set_nn w).1 h
  exact dispatch_set0 hset

/-- In Set 0x8 a word decodes by its selector N (R99). -/
theorem decodeWord_eq_decodeSet8 (n : Nibble) (h : w &&& 0xF00F = packXYN 0x8 0 0 n) :
    decodeWord w = decodeSet8 { fieldsOf w with n := n } := by
  obtain ⟨hset, rfl⟩ := (selects_set_n w).1 h
  exact dispatch_set8 hset

/-- In Set 0xE a word decodes by its selector NN (R100). -/
theorem decodeWord_eq_decodeSetE (nn : Byte) (h : w &&& 0xF0FF = packXNN 0xE 0 nn) :
    decodeWord w = decodeSetE { fieldsOf w with nn := nn } := by
  obtain ⟨hset, rfl⟩ := (selects_set_nn w).1 h
  exact dispatch_setE hset

/-- In Set 0xF a word decodes by its selector NN (R101). -/
theorem decodeWord_eq_decodeSetF (nn : Byte) (h : w &&& 0xF0FF = packXNN 0xF 0 nn) :
    decodeWord w = decodeSetF { fieldsOf w with nn := nn } := by
  obtain ⟨hset, rfl⟩ := (selects_set_nn w).1 h
  exact dispatch_setF hset

end

/-- A word that selects an instruction's row decodes to the instruction of that row with the word's fields: the first
level of dispatch reads Set, and in the Sets 0x0, 0x8, 0xE and 0xF the selector decides (R95 to R101). -/
theorem decodeWord_of_selects (w : Word) (i : Instr) (h : i.row.Selects w) :
    decodeWord w = .ok (i.withFieldsOf w) := by
  cases i with
  | cls => exact decodeWord_eq_decodeSet0 0xE0 h
  | ret => exact decodeWord_eq_decodeSet0 0xEE h
  | jp => exact dispatch_set1 ((selects_set w).1 h)
  | call => exact dispatch_set2 ((selects_set w).1 h)
  | seImm => exact dispatch_set3 ((selects_set w).1 h)
  | sneImm => exact dispatch_set4 ((selects_set w).1 h)
  | seReg => exact dispatch_set5 ((selects_set w).1 h)
  | ldImm => exact dispatch_set6 ((selects_set w).1 h)
  | addImm => exact dispatch_set7 ((selects_set w).1 h)
  | ldReg => exact decodeWord_eq_decodeSet8 0x0 h
  | orReg => exact decodeWord_eq_decodeSet8 0x1 h
  | andReg => exact decodeWord_eq_decodeSet8 0x2 h
  | xorReg => exact decodeWord_eq_decodeSet8 0x3 h
  | addReg => exact decodeWord_eq_decodeSet8 0x4 h
  | sub => exact decodeWord_eq_decodeSet8 0x5 h
  | shr => exact decodeWord_eq_decodeSet8 0x6 h
  | subn => exact decodeWord_eq_decodeSet8 0x7 h
  | shl => exact decodeWord_eq_decodeSet8 0xE h
  | sneReg => exact dispatch_set9 ((selects_set w).1 h)
  | ldI => exact dispatch_setA ((selects_set w).1 h)
  | jpV0 => exact dispatch_setB ((selects_set w).1 h)
  | rnd => exact dispatch_setC ((selects_set w).1 h)
  | drw => exact dispatch_setD ((selects_set w).1 h)
  | skp => exact decodeWord_eq_decodeSetE 0x9E h
  | sknp => exact decodeWord_eq_decodeSetE 0xA1 h
  | ldVxDt => exact decodeWord_eq_decodeSetF 0x07 h
  | ldK => exact decodeWord_eq_decodeSetF 0x0A h
  | ldDtVx => exact decodeWord_eq_decodeSetF 0x15 h
  | ldStVx => exact decodeWord_eq_decodeSetF 0x18 h
  | addIVx => exact decodeWord_eq_decodeSetF 0x1E h
  | ldFVx => exact decodeWord_eq_decodeSetF 0x29 h
  | ldBVx => exact decodeWord_eq_decodeSetF 0x33 h
  | ldMemVx => exact decodeWord_eq_decodeSetF 0x55 h
  | ldVxMem => exact decodeWord_eq_decodeSetF 0x65 h

/-! ## A decoded instruction's word is the word it was decoded from (R97) -/

section
variable {w : Word} {g : Nibble}

theorem packNNN_of_set (hset : setOf w = g) : packNNN g (nnnOf w) = w := by
  rw [← hset, packNNN_fields]

theorem packXNN_of_set_nn {nn : Byte} (hset : setOf w = g) (hnn : nnOf w = nn) : packXNN g (xOf w) nn = w := by
  rw [← hset, ← hnn, packXNN_fields]

theorem packXYN_of_set_n {n : Nibble} (hset : setOf w = g) (hn : nOf w = n) : packXYN g (xOf w) (yOf w) n = w := by
  rw [← hset, ← hn, packXYN_fields]

end

/-- The fields that the decoder kept, ignored ones included, pack back to the word: by the cases of Set, and of the
selector where there is one. -/
theorem encodeWord_of_decodeWord {w : Word} {i : Instr} (h : decodeWord w = .ok i) : encodeWord i = w := by
  unfold decodeWord at h
  match hset : setOf w with
  | 0x0 =>
    rw [dispatch_set0 hset, decodeSet0_ok] at h
    rcases h with ⟨hsel, rfl⟩ | ⟨hsel, rfl⟩ <;> exact packXNN_of_set_nn hset hsel
  | 0x1 => cases (dispatch_set1 hset).symm.trans h; exact packNNN_of_set hset
  | 0x2 => cases (dispatch_set2 hset).symm.trans h; exact packNNN_of_set hset
  | 0x3 => cases (dispatch_set3 hset).symm.trans h; exact packXNN_of_set_nn hset rfl
  | 0x4 => cases (dispatch_set4 hset).symm.trans h; exact packXNN_of_set_nn hset rfl
  | 0x5 => cases (dispatch_set5 hset).symm.trans h; exact packXYN_of_set_n hset rfl
  | 0x6 => cases (dispatch_set6 hset).symm.trans h; exact packXNN_of_set_nn hset rfl
  | 0x7 => cases (dispatch_set7 hset).symm.trans h; exact packXNN_of_set_nn hset rfl
  | 0x8 =>
    rw [dispatch_set8 hset, decodeSet8_ok] at h
    rcases h with ⟨hsel, rfl⟩ | ⟨hsel, rfl⟩ | ⟨hsel, rfl⟩ | ⟨hsel, rfl⟩ | ⟨hsel, rfl⟩ |
      ⟨hsel, rfl⟩ | ⟨hsel, rfl⟩ | ⟨hsel, rfl⟩ | ⟨hsel, rfl⟩ <;>
      exact packXYN_of_set_n hset hsel
  | 0x9 => cases (dispatch_set9 hset).symm.trans h; exact packXYN_of_set_n hset rfl
  | 0xA => cases (dispatch_setA hset).symm.trans h; exact packNNN_of_set hset
  | 0xB => cases (dispatch_setB hset).symm.trans h; exact packNNN_of_set hset
  | 0xC => cases (dispatch_setC hset).symm.trans h; exact packXNN_of_set_nn hset rfl
  | 0xD => cases (dispatch_setD hset).symm.trans h; exact packXYN_of_set_n hset rfl
  | 0xE =>
    rw [dispatch_setE hset, decodeSetE_ok] at h
    rcases h with ⟨hsel, rfl⟩ | ⟨hsel, rfl⟩ <;> exact packXNN_of_set_nn hset hsel
  | 0xF =>
    rw [dispatch_setF hset, decodeSetF_ok] at h
    rcases h with ⟨hsel, rfl⟩ | ⟨hsel, rfl⟩ | ⟨hsel, rfl⟩ | ⟨hsel, rfl⟩ | ⟨hsel, rfl⟩ |
      ⟨hsel, rfl⟩ | ⟨hsel, rfl⟩ | ⟨hsel, rfl⟩ | ⟨hsel, rfl⟩ <;>
      exact packXNN_of_set_nn hset hsel
  | ⟨_ + 16, hlt⟩ => omega

/-- The family RowWord over every instruction. -/
theorem Laws.RowWord.all : ∀ i : Instr, Laws.RowWord.Statement i
  | .cls x => Laws.RowWord.cls x
  | .ret x => Laws.RowWord.ret x
  | .jp nnn => Laws.RowWord.jp nnn
  | .call nnn => Laws.RowWord.call nnn
  | .seImm x nn => Laws.RowWord.seImm x nn
  | .sneImm x nn => Laws.RowWord.sneImm x nn
  | .seReg x y n => Laws.RowWord.seReg x y n
  | .ldImm x nn => Laws.RowWord.ldImm x nn
  | .addImm x nn => Laws.RowWord.addImm x nn
  | .ldReg x y => Laws.RowWord.ldReg x y
  | .orReg x y => Laws.RowWord.orReg x y
  | .andReg x y => Laws.RowWord.andReg x y
  | .xorReg x y => Laws.RowWord.xorReg x y
  | .addReg x y => Laws.RowWord.addReg x y
  | .sub x y => Laws.RowWord.sub x y
  | .shr x y => Laws.RowWord.shr x y
  | .subn x y => Laws.RowWord.subn x y
  | .shl x y => Laws.RowWord.shl x y
  | .sneReg x y n => Laws.RowWord.sneReg x y n
  | .ldI nnn => Laws.RowWord.ldI nnn
  | .jpV0 nnn => Laws.RowWord.jpV0 nnn
  | .rnd x nn => Laws.RowWord.rnd x nn
  | .drw x y n => Laws.RowWord.drw x y n
  | .skp x => Laws.RowWord.skp x
  | .sknp x => Laws.RowWord.sknp x
  | .ldVxDt x => Laws.RowWord.ldVxDt x
  | .ldK x => Laws.RowWord.ldK x
  | .ldDtVx x => Laws.RowWord.ldDtVx x
  | .ldStVx x => Laws.RowWord.ldStVx x
  | .addIVx x => Laws.RowWord.addIVx x
  | .ldFVx x => Laws.RowWord.ldFVx x
  | .ldBVx x => Laws.RowWord.ldBVx x
  | .ldMemVx x => Laws.RowWord.ldMemVx x
  | .ldVxMem x => Laws.RowWord.ldVxMem x

/-- A decoded instruction stands in the opcode map, in a row that its word selects. -/
theorem row_of_decodeWord {w : Word} {i : Instr} (h : decodeWord w = .ok i) :
    i.row ∈ opcodeTable ∧ i.row.Selects w := by
  obtain ⟨hsel, hmem⟩ := Laws.RowWord.all i
  rw [encodeWord_of_decodeWord h] at hsel
  exact ⟨hmem, hsel⟩

/-- A word that selects a row of the opcode map decodes to an instruction of that row. -/
theorem exists_decodeWord_of_row {w : Word} {row : Row} (hmem : row ∈ opcodeTable) (hsel : row.Selects w) :
    ∃ i, decodeWord w = .ok i ∧ i.row = row := by
  obtain ⟨i, -, rfl⟩ := List.mem_map.1 hmem
  exact ⟨i.withFieldsOf w, decodeWord_of_selects w i hsel, i.row_withFieldsOf w⟩

/-- Settles O2: rows select what decodes to them; two rows of one word would be the rows of its one instruction. -/
theorem opcodeMapSelectsInstruction : Obligations.OpcodeMapSelectsInstruction := by
  refine ⟨fun w row => exists_decodeWord_of_row, fun w i => row_of_decodeWord, fun w r q hr hq hwr hwq => ?_⟩
  obtain ⟨i, hi, rfl⟩ := exists_decodeWord_of_row hr hwr
  obtain ⟨j, hj, rfl⟩ := exists_decodeWord_of_row hq hwq
  rw [Except.ok.inj (hi.symm.trans hj)]

end Sys2Proof
end

section
/-! PROOFS. The jump and the skips of spec/41_control.md. The one idea: 1NNN and every skip are a write of `pc` alone
(`State.setPc_frame`, `State.skipIf_frame`), so each instruction is settled by the new `pc` and that frame. -/

namespace Sys2Proof.Machine

/-! ## Writes of `pc` (R37, R140) -/

/-- The address field loses no bit when it is extended to `pc`'s width (R94). -/
theorem zextAddr_toNat (nnn : Addr12) : (zextAddr nnn).toNat = nnn.toNat :=
  BitVec.toNat_setWidth_of_le (by decide)

namespace State

variable (s : State)

/-- A write of `pc` changes nothing else. -/
theorem setPc_frame (a : Word) : Frame s (s.setPc a) { pc := true } where
  regs _ _ := rfl
  mem _ _ := rfl
  i _ := rfl
  pc h := nomatch h
  stack _ := ⟨rfl, rfl⟩
  dt _ := rfl
  display _ := ⟨rfl, rfl, rfl⟩
  faults _ := rfl
  out _ := rfl
  draws _ := rfl
  keys := rfl
  booted := rfl
  cfg := rfl

/-- A skip, taken or not, changes `pc` at most (R140). -/
theorem skipIf_frame (c : Bool) : Frame s (s.skipIf c) { pc := true } := by
  rw [skipIf_eq_setPc]
  exact s.setPc_frame _

/-- A skip on equal bytes adds 2 to `pc` when they are equal. -/
theorem skipIf_beq_pc (a b : Byte) : (s.skipIf (a == b)).pc = if a = b then s.pc + 2 else s.pc := by
  rw [skipIf_pc]
  simp only [beq_iff_eq]

/-- A skip on different bytes leaves `pc` when they are equal. -/
theorem skipIf_bne_pc (a b : Byte) : (s.skipIf (a != b)).pc = if a = b then s.pc else s.pc + 2 := by
  rw [skipIf_pc]
  simp only [bne_iff_ne, ite_not]

end State

/-! ## What the instructions answer (R142, R144 to R147) -/

section
variable (x y n : Nibble) (nn : Byte) (nnn : Addr12) (s : State)

theorem exec_jp : exec (.jp nnn) s = .next (s.setPc (zextAddr nnn)) := rfl
theorem exec_seImm : exec (.seImm x nn) s = .next (s.skipIf (s.getV x == nn)) := rfl
theorem exec_sneImm : exec (.sneImm x nn) s = .next (s.skipIf (s.getV x != nn)) := rfl
theorem exec_seReg : exec (.seReg x y n) s = .next (s.skipIf (s.getV x == s.getV y)) := rfl
theorem exec_sneReg : exec (.sneReg x y n) s = .next (s.skipIf (s.getV x != s.getV y)) := rfl

end

/-- Settles O11: 1NNN is one write of `pc`, with the extended address. -/
theorem jumpSetsPc : Obligations.JumpSetsPc := by
  refine ⟨fun w h => decodeWord_of_selects w (.jp 0) h, fun nnn s => ?_⟩
  exact ⟨_, exec_jp nnn s, zextAddr_toNat nnn, s.setPc_frame _⟩

/-- Settles O16: 3XNN is a skip on equality with NN, 4XNN a skip on difference. -/
theorem immediateSkips : Obligations.ImmediateSkips := by
  refine ⟨fun w h => decodeWord_of_selects w (.seImm 0 0) h,
    fun w h => decodeWord_of_selects w (.sneImm 0 0) h, fun x nn s => ⟨?_, ?_⟩⟩
  · exact ⟨_, exec_seImm x nn s, s.skipIf_beq_pc _ _, s.skipIf_frame _⟩
  · exact ⟨_, exec_sneImm x nn s, s.skipIf_bne_pc _ _, s.skipIf_frame _⟩

/-- Settles O17: 5XYN is a skip on equal registers, 9XYN a skip on different ones, for every N. -/
theorem registerSkips : Obligations.RegisterSkips := by
  refine ⟨fun w h => decodeWord_of_selects w (.seReg 0 0 0) h,
    fun w h => decodeWord_of_selects w (.sneReg 0 0 0) h, fun x y n s => ⟨?_, ?_⟩⟩
  · exact ⟨_, exec_seReg x y n s, s.skipIf_beq_pc _ _, s.skipIf_frame _⟩
  · exact ⟨_, exec_sneReg x y n s, s.skipIf_bne_pc _ _, s.skipIf_frame _⟩

end Sys2Proof.Machine
end

section
/-! PROOFS. The immediate loads of spec/42_register_immediate.md. The one idea: 6XNN is a write of Vx alone and ANNN
a write of I alone, so each follows from the value read back and the frame of that write (`State.setV_frame`,
`State.setI_frame`). -/

namespace Sys2Proof.Machine

namespace State

variable (s : State)

/-- A write of a general register changes no other register and no other part of the state. -/
theorem setV_frame (x : Nibble) (b : Byte) : Frame s (s.setV x b) { regs := fun r => r = x } where
  regs _ hr := s.setV_getV_other b hr
  mem a _ := s.setV_memRead x b a
  i _ := s.setV_i x b
  pc _ := s.setV_pc x b
  stack _ := ⟨s.setV_stack x b, s.setV_sp x b⟩
  dt _ := s.setV_dt x b
  display _ := ⟨s.setV_fb x b, s.setV_pend x b, s.setV_redraw x b⟩
  faults _ := s.setV_faults x b
  out _ := s.setV_out x b
  draws _ := s.setV_draws x b
  keys := s.setV_keys x b
  booted := s.setV_booted x b
  cfg := s.setV_cfg x b

/-- A write of I changes nothing else. -/
theorem setI_frame (a : Word) : Frame s (s.setI a) { i := true } where
  regs r _ := s.setI_getV a r
  mem q _ := s.setI_memRead a q
  i h := nomatch h
  pc _ := s.setI_pc a
  stack _ := ⟨s.setI_stack a, s.setI_sp a⟩
  dt _ := s.setI_dt a
  display _ := ⟨s.setI_fb a, s.setI_pend a, s.setI_redraw a⟩
  faults _ := s.setI_faults a
  out _ := s.setI_out a
  draws _ := s.setI_draws a
  keys := s.setI_keys a
  booted := s.setI_booted a
  cfg := s.setI_cfg a

end State

/-! ## What the immediate loads answer (R160, R162) -/

theorem exec_ldImm (x : Nibble) (nn : Byte) (s : State) : exec (.ldImm x nn) s = .next (s.setV x nn) := rfl
theorem exec_ldI (nnn : Addr12) (s : State) : exec (.ldI nnn) s = .next (s.setI (zextAddr nnn)) := rfl

/-- Settles O19: 6XNN is one write of Vx, with NN; the read back and the frame hold for X = 0xF too. -/
theorem loadImmediateWritesVx : Obligations.LoadImmediateWritesVx := by
  refine ⟨fun w h => decodeWord_of_selects w (.ldImm 0 0) h, fun x nn s => ?_⟩
  exact ⟨_, exec_ldImm x nn s, s.setV_getV_self x nn, s.setV_frame x nn⟩

/-- Settles O21: ANNN is one write of I, with the extended address. -/
theorem loadIndexWritesI : Obligations.LoadIndexWritesI := by
  refine ⟨fun w h => decodeWord_of_selects w (.ldI 0) h, fun nnn s => ?_⟩
  exact ⟨_, exec_ldI nnn s, zextAddr_toNat nnn, s.setI_frame _⟩

end Sys2Proof.Machine
end

section
/-! PROOFS. 8XY0 to 8XY6 of spec/43_alu.md. The one idea: 8XY0 to 8XY3 are a write of Vx alone (`State.setV_frame`);
8XY4 to 8XY6 are a write of Vx and then of VF (`State.setVThenVF`), so VF always holds the flag and Vx the result unless
X = 0xF. What is left of each instruction is its result and its flag as numbers. -/

namespace Sys2Proof.Machine

/-! ## A result, then its flag (R128, R170) -/

namespace State

variable (s : State)

/-- The flag, written last, does not reach a result outside VF. -/
theorem setVThenVF_getV_of_ne_VF {x : Nibble} (b : Byte) (f : Bool) (hx : x ≠ 15) :
    (s.setVThenVF x b f).getV x = b :=
  ((s.setV x b).setVF_getV_other f hx).trans (s.setV_getV_self x b)

/-- VF holds the flag, X = 0xF included. -/
theorem setVThenVF_getV_VF (x : Nibble) (b : Byte) (f : Bool) :
    (s.setVThenVF x b f).getV 15 = if f then 1 else 0 :=
  (s.setV x b).setVF_getV_VF f

/-- A result and its flag change Vx and VF at most. -/
theorem setVThenVF_frame (x : Nibble) (b : Byte) (f : Bool) :
    Frame s (s.setVThenVF x b f) { regs := fun r => r = x ∨ r = 15 } where
  regs r hr := by
    obtain ⟨hrx, hrf⟩ := not_or.1 hr
    exact ((s.setV x b).setVF_getV_other f hrf).trans (s.setV_getV_other b hrx)
  mem _ _ := rfl
  i _ := rfl
  pc _ := rfl
  stack _ := ⟨rfl, rfl⟩
  dt _ := rfl
  display _ := ⟨rfl, rfl, rfl⟩
  faults _ := rfl
  out _ := rfl
  draws _ := rfl
  keys := rfl
  booted := rfl
  cfg := rfl

end State

/-! ## Results and flags as numbers (R171, R177, R178) -/

section
variable (a b : Byte)

theorem carryFlag_eq_true : carryFlag a b = true ↔ a.toNat + b.toNat > 255 := decide_eq_true_iff

theorem noBorrowFlag_eq_true : noBorrowFlag a b = true ↔ a.toNat ≥ b.toNat := decide_eq_true_iff

theorem shrFlag_eq_true : shrFlag a = true ↔ a.toNat % 2 = 1 := by
  rw [shrFlag, BitVec.getLsbD, Nat.testBit_zero, decide_eq_true_iff]

/-- The difference modulo 256 is the integers' one, a negative difference included. -/
theorem byte_sub_toNat : ((a - b).toNat : Int) = ((a.toNat : Int) - b.toNat) % 256 := by
  have hb := b.isLt
  rw [BitVec.toNat_sub]
  omega

/-- The flag byte of 8XY6 is the remainder that the shift drops. -/
theorem shrFlag_byte_toNat : (if shrFlag a then 1 else 0 : Byte).toNat = a.toNat % 2 := by
  simp only [shrFlag_eq_true]
  split
  case isTrue hodd => exact hodd.symm
  case isFalse heven => exact (Nat.mod_two_ne_one.1 heven).symm

end

/-! ## What the instructions answer (R172 to R178) -/

section
variable (x y : Nibble) (s : State)

theorem exec_ldReg : exec (.ldReg x y) s = .next (s.setV x (s.getV y)) := rfl
theorem exec_orReg : exec (.orReg x y) s = .next (s.setV x (s.getV x ||| s.getV y)) := rfl
theorem exec_andReg : exec (.andReg x y) s = .next (s.setV x (s.getV x &&& s.getV y)) := rfl
theorem exec_xorReg : exec (.xorReg x y) s = .next (s.setV x (s.getV x ^^^ s.getV y)) := rfl
theorem exec_addReg : exec (.addReg x y) s =
    .next (s.setVThenVF x (s.getV x + s.getV y) (carryFlag (s.getV x) (s.getV y))) := rfl
theorem exec_sub : exec (.sub x y) s =
    .next (s.setVThenVF x (s.getV x - s.getV y) (noBorrowFlag (s.getV x) (s.getV y))) := rfl
theorem exec_shr : exec (.shr x y) s = .next (s.setVThenVF x (s.getV x >>> 1) (shrFlag (s.getV x))) := rfl

end

/-- Settles O23: each of the four is one write of Vx; its frame leaves VF out unless X = 0xF. -/
theorem copyAndLogicWriteVx : Obligations.CopyAndLogicWriteVx := by
  refine ⟨fun w h => decodeWord_of_selects w (.ldReg 0 0) h, fun w h => decodeWord_of_selects w (.orReg 0 0) h,
    fun w h => decodeWord_of_selects w (.andReg 0 0) h, fun w h => decodeWord_of_selects w (.xorReg 0 0) h,
    fun x y s => ⟨?_, ?_, ?_, ?_⟩⟩
  · exact ⟨_, exec_ldReg x y s, s.setV_getV_self x _, s.setV_frame x _⟩
  · exact ⟨_, exec_orReg x y s, s.setV_getV_self x _, s.setV_frame x _⟩
  · exact ⟨_, exec_andReg x y s, s.setV_getV_self x _, s.setV_frame x _⟩
  · exact ⟨_, exec_xorReg x y s, s.setV_getV_self x _, s.setV_frame x _⟩

/-- Settles O24: the sum of two bytes is taken modulo 256, and the carry is written after it. -/
theorem addSetsCarry : Obligations.AddSetsCarry := by
  refine ⟨fun w h => decodeWord_of_selects w (.addReg 0 0) h, fun x y s => ?_⟩
  refine ⟨_, exec_addReg x y s, fun hx => ?_, ?_, s.setVThenVF_frame x _ _⟩
  · rw [s.setVThenVF_getV_of_ne_VF _ _ hx, BitVec.toNat_add]
  · simp only [s.setVThenVF_getV_VF, carryFlag_eq_true]

/-- Settles O25: the difference of two bytes is taken modulo 256, and the no-borrow flag is written after it. -/
theorem subSetsNoBorrow : Obligations.SubSetsNoBorrow := by
  refine ⟨fun w h => decodeWord_of_selects w (.sub 0 0) h, fun x y s => ?_⟩
  refine ⟨_, exec_sub x y s, fun hx => ?_, ?_, s.setVThenVF_frame x _ _⟩
  · rw [s.setVThenVF_getV_of_ne_VF _ _ hx, byte_sub_toNat]
  · simp only [s.setVThenVF_getV_VF, noBorrowFlag_eq_true]

/-- Settles O26: the shift is the half of Vx, and the bit shifted out, its remainder, is written after it. -/
theorem shiftRightSetsLowBit : Obligations.ShiftRightSetsLowBit := by
  refine ⟨fun w h => decodeWord_of_selects w (.shr 0 0) h, fun x y s => ?_⟩
  refine ⟨_, exec_shr x y s, fun hx => ?_, ?_, s.setVThenVF_frame x _ _⟩
  · rw [s.setVThenVF_getV_of_ne_VF _ _ hx, BitVec.toNat_ushiftRight, Nat.shiftRight_one]
  · rw [s.setVThenVF_getV_VF, shrFlag_byte_toNat]

end Sys2Proof.Machine
end

section
/-! PROOFS. The key skips of spec/45_keypad.md. The one idea: EX9E and EXA1 are one skip on the opposite values of
`State.pressed`, so both follow from when a byte is pressed (`State.pressed_iff`) and from what a skip changes
(`State.skipIf_pc`, `State.skipIf_frame`). -/

namespace Sys2Proof.Machine

/-- A byte is not pressed when no key of its code is down; a byte above 15 is the code of no key (R211). -/
theorem State.pressed_eq_false_iff (s : State) (b : Byte) :
    s.pressed b = false ↔ ∀ k : Nibble, b.toNat = k.val → s.keys[k.val] = false := by
  rw [← Bool.not_eq_true, s.pressed_iff]
  simp only [not_exists, not_and, Bool.not_eq_true]

/-- A skip on a condition that fails leaves `pc` when the condition holds. -/
theorem State.skipIf_not_pc (s : State) (c : Bool) : (s.skipIf (!c)).pc = if c then s.pc else s.pc + 2 := by
  cases c <;> exact s.skipIf_pc _

/-! ## What the key skips answer (R212, R213) -/

theorem exec_skp (x : Nibble) (s : State) : exec (.skp x) s = .next (s.skipIf (s.pressed (s.getV x))) := rfl
theorem exec_sknp (x : Nibble) (s : State) : exec (.sknp x) s = .next (s.skipIf (!s.pressed (s.getV x))) := rfl

/-- Settles O35: EX9E is a skip when the value of Vx is pressed, EXA1 when it is not. -/
theorem keySkips : Obligations.KeySkips := by
  refine ⟨fun w h => decodeWord_of_selects w (.skp 0) h, fun w h => decodeWord_of_selects w (.sknp 0) h,
    fun x s => ?_⟩
  simp only [← s.pressed_iff, ← s.pressed_eq_false_iff]
  refine ⟨⟨_, exec_skp x s, s.skipIf_frame _, fun hdown => ?_, fun hup => ?_⟩,
    ⟨_, exec_sknp x s, s.skipIf_frame _, fun hdown => ?_, fun hup => ?_⟩⟩
  · rw [s.skipIf_pc, if_pos hdown]
  · rw [s.skipIf_pc, if_neg (Bool.eq_false_iff.1 hup)]
  · rw [s.skipIf_not_pc, if_pos hdown]
  · rw [s.skipIf_not_pc, if_neg (Bool.eq_false_iff.1 hup)]

end Sys2Proof.Machine
end

section
/-! PROOFS. The timer moves, the two writes of I and the decimal store of spec/46_misc.md. The one idea: each
instruction is one named update of the state (`setV`, `setDt`, `setI`, `storeBytes`), so its effect is the value that
the update leaves and its frame is the update's; what is left is the arithmetic of extended bytes and of decimal
digits. -/

namespace Sys2Proof.Machine

/-! ## Frames of the timer write and of memory writes (R41, R63) -/

namespace State

variable (s : State)

/-- A write of DT changes nothing else. -/
theorem setDt_frame (b : Byte) : Frame s (s.setDt b) { dt := true } where
  regs r _ := s.setDt_getV b r
  mem q _ := s.setDt_memRead b q
  i _ := s.setDt_i b
  pc _ := s.setDt_pc b
  stack _ := ⟨s.setDt_stack b, s.setDt_sp b⟩
  dt h := nomatch h
  display _ := ⟨s.setDt_fb b, s.setDt_pend b, s.setDt_redraw b⟩
  faults _ := s.setDt_faults b
  out _ := s.setDt_out b
  draws _ := s.setDt_draws b
  keys := s.setDt_keys b
  booted := s.setDt_booted b
  cfg := s.setDt_cfg b

/-- A new memory has the frame of any set of addresses outside which it reads as the old one. -/
theorem withMem_frame {m : Memory} {p : Nat → Prop}
    (hmem : ∀ a, ¬ p (reduceAddr a) → State.memRead { s with mem := m } a = s.memRead a) :
    Frame s { s with mem := m } { mem := p } where
  regs _ _ := rfl
  mem := hmem
  i _ := rfl
  pc _ := rfl
  stack _ := ⟨rfl, rfl⟩
  dt _ := rfl
  display _ := ⟨rfl, rfl, rfl⟩
  faults _ := rfl
  out _ := rfl
  draws _ := rfl
  keys := rfl
  booted := rfl
  cfg := rfl

/-- Storing bytes changes those at the stored addresses at most. -/
theorem storeBytes_frame (a : Nat) (bs : List Byte) :
    Frame s (s.storeBytes a bs) { mem := fun p => ∃ k < bs.length, p = reduceAddr (a + k) } := by
  have heq := s.storeBytes_eq a bs
  rw [heq]
  refine s.withMem_frame fun q hq => ?_
  rw [← heq]
  exact s.storeBytes_memRead_outside a bs q fun k hk he => hq ⟨k, hk, he.symm⟩

end State

/-! ## Extended bytes and decimal digits as numbers (R229 to R231) -/

section
variable (b : Byte) (a : Word)

/-- A byte loses no bit when it is extended to I's width. -/
theorem zextByte_toNat : (zextByte b).toNat = b.toNat := BitVec.toNat_setWidth_of_le (by decide)

theorem add_zextByte_toNat : (a + zextByte b).toNat = (a.toNat + b.toNat) % 65536 := by
  rw [BitVec.toNat_add, zextByte_toNat]

/-- Five times a byte is below 65536, so the product is not reduced. -/
theorem zextByte_mul_five_toNat : (zextByte b * 5).toNat = 5 * b.toNat := by
  have hb := b.isLt
  rw [BitVec.toNat_mul, zextByte_toNat]
  change b.toNat * 5 % 65536 = 5 * b.toNat
  omega

end

/-- The three digits of a byte, read back where they were stored: none is too large for a byte. -/
theorem State.storeBytes_bcdDigits_memRead (s : State) (a : Nat) (b : Byte) :
    ((s.storeBytes a (bcdDigits b)).memRead a).toNat = b.toNat / 100 ∧
    ((s.storeBytes a (bcdDigits b)).memRead (a + 1)).toNat = b.toNat / 10 % 10 ∧
    ((s.storeBytes a (bcdDigits b)).memRead (a + 2)).toNat = b.toNat % 10 := by
  have hb := b.isLt
  have hread (k : Nat) (hk : k < 3) :=
    s.storeBytes_memRead_inside a (bcdDigits b) (by decide : 3 ≤ memSize) k hk
  have hdigit {n : Nat} (hn : n < 2 ^ 8) : (BitVec.ofNat 8 n).toNat = n := by
    rw [BitVec.toNat_ofNat, Nat.mod_eq_of_lt hn]
  refine ⟨?_, ?_, ?_⟩
  · exact (congrArg BitVec.toNat (hread 0 (by decide))).trans (hdigit (by omega))
  · exact (congrArg BitVec.toNat (hread 1 (by decide))).trans (hdigit (by omega))
  · exact (congrArg BitVec.toNat (hread 2 (by decide))).trans (hdigit (by omega))

/-! ## What the instructions answer (R226, R227, R229 to R231) -/

section
variable (x : Nibble) (s : State)

theorem exec_ldVxDt : exec (.ldVxDt x) s = .next (s.setV x s.dt) := rfl
theorem exec_ldDtVx : exec (.ldDtVx x) s = .next (s.setDt (s.getV x)) := rfl
theorem exec_addIVx : exec (.addIVx x) s = .next (s.setI (s.i + zextByte (s.getV x))) := rfl
theorem exec_ldFVx : exec (.ldFVx x) s = .next (s.setI (zextByte (s.getV x) * 5)) := rfl
theorem exec_ldBVx : exec (.ldBVx x) s = .next (s.storeBytes s.i.toNat (bcdDigits (s.getV x))) := rfl

end

/-- Settles O38: FX07 is one write of Vx with DT, FX15 one write of DT with Vx. -/
theorem delayTimerMoves : Obligations.DelayTimerMoves := by
  refine ⟨fun w h => decodeWord_of_selects w (.ldVxDt 0) h, fun w h => decodeWord_of_selects w (.ldDtVx 0) h,
    fun x s => ⟨?_, ?_⟩⟩
  · exact ⟨_, exec_ldVxDt x s, s.setV_getV_self x _, s.setV_frame x _⟩
  · exact ⟨_, exec_ldDtVx x s, s.setDt_dt _, s.setDt_frame _⟩

/-- Settles O40: FX1E is one write of I, so no flag is written; the sum of two words is taken modulo 65536. -/
theorem addIndexWraps : Obligations.AddIndexWraps := by
  refine ⟨fun w h => decodeWord_of_selects w (.addIVx 0) h, fun x s => ?_⟩
  exact ⟨_, exec_addIVx x s, add_zextByte_toNat _ _, s.setI_frame _⟩

/-- Settles O41: FX29 is one write of I with five times Vx, and Vx is at most 255. -/
theorem fontIndexIsFiveTimesVx : Obligations.FontIndexIsFiveTimesVx := by
  refine ⟨fun w h => decodeWord_of_selects w (.ldFVx 0) h, fun x s => ?_⟩
  have hi := zextByte_mul_five_toNat (s.getV x)
  have hvx := (s.getV x).isLt
  refine ⟨_, exec_ldFVx x s, hi, ?_, s.setI_frame _⟩
  rw [State.setI_i, hi]
  omega

/-- Settles O42: FX33 stores the three digits of Vx and nothing else; each reads back, and together they are Vx. -/
theorem bcdStoresThreeDigits : Obligations.BcdStoresThreeDigits := by
  refine ⟨fun w h => decodeWord_of_selects w (.ldBVx 0) h, fun x s => ?_⟩
  obtain ⟨hundreds, tens, ones⟩ := s.storeBytes_bcdDigits_memRead s.i.toNat (s.getV x)
  have hvx := (s.getV x).isLt
  refine ⟨_, exec_ldBVx x s, hundreds, tens, ones, ?_, ?_, s.storeBytes_frame _ _⟩
  · rw [hundreds]
    omega
  · rw [hundreds, tens, ones]
    omega

end Sys2Proof.Machine
end

section
/-! PROOFS. The TICK of spec/60_exceptions.md. The one idea: TICK rewrites DT, `redraw` and the emitted events and
nothing else (`State.tick_eq`), so its values, its frame and its outcome are read off that one form of the state. -/

namespace Sys2Proof.Machine

namespace State

variable (s : State)

/-! ## What TICK does (R260, R261) -/

theorem tickTimer_eq_setDt : s.tickTimer = s.setDt (if s.dt = 0 then s.dt else s.dt - 1) := by
  unfold tickTimer
  split <;> rfl

/-- The flush clears `redraw`, and emits the framebuffer when `redraw` was true. -/
theorem flushRedraw_eq : s.flushRedraw =
    { s with redraw := false, out := s.out ++ if s.redraw then [.present s.fb] else [] } := by
  unfold flushRedraw
  split
  case isTrue => rfl
  case isFalse hclear => rw [List.append_nil, ← Bool.eq_false_iff.2 hclear]

/-- Everything a TICK does. -/
theorem tick_eq : s.tick =
    { s with
      dt := if s.dt = 0 then s.dt else s.dt - 1
      redraw := false
      out := s.out ++ if s.redraw then [.present s.fb] else [] } := by
  rw [tick, tickTimer_eq_setDt, flushRedraw_eq]
  rfl

theorem tick_dt : s.tick.dt = if s.dt = 0 then s.dt else s.dt - 1 := by rw [tick_eq]
@[simp] theorem tick_redraw : s.tick.redraw = false := by rw [tick_eq]
@[simp] theorem tick_fb : s.tick.fb = s.fb := by rw [tick_eq]
@[simp] theorem tick_pend : s.tick.pend = s.pend := by rw [tick_eq]
@[simp] theorem tick_faults : s.tick.faults = s.faults := by rw [tick_eq]

/-- A DT that is not 0 loses 1 without a borrow. -/
theorem tick_dt_toNat : s.tick.dt.toNat = if s.dt.toNat ≠ 0 then s.dt.toNat - 1 else 0 := by
  rw [tick_dt]
  by_cases hzero : s.dt = 0
  · simp [hzero]
  · have hpos : s.dt.toNat ≠ 0 := fun h => hzero (BitVec.eq_of_toNat_eq h)
    rw [if_neg hzero, if_pos hpos]
    bv_omega

/-- A TICK changes nothing but DT, the display's `redraw` and the emitted events. -/
theorem tick_frame : Frame s s.tick { dt := true, display := true, out := true } := by
  rw [tick_eq]
  exact {
    regs := fun _ _ => rfl
    mem := fun _ _ => rfl
    i := fun _ => rfl
    pc := fun _ => rfl
    stack := fun _ => ⟨rfl, rfl⟩
    dt := nofun
    display := nofun
    faults := fun _ => rfl
    out := nofun
    draws := fun _ => rfl
    keys := rfl
    booted := rfl
    cfg := rfl }

end State

/-! ## What the command TICK answers (R260, R283) -/

/-- A command that records no error answers Ok (R256). -/
theorem respond_outcome_of_faults_eq {s t : State} (h : t.faults = s.faults) : (respond s t).outcome = .ok := by
  rw [respond, h, List.drop_length]
  rfl

theorem command_tick_of_booted {s : State} (h : s.booted = true) : command .tick s = respond s s.tick := if_pos h

theorem command_tick_of_not_booted {s : State} (h : s.booted = false) : command .tick s = refuse s :=
  if_neg (Bool.eq_false_iff.1 h)

/-- Settles O52: after boot the command answers Ok with `State.tick`, before boot it is refused. -/
theorem tickDecrementsTimer : Obligations.TickDecrementsTimer := by
  refine fun s => ⟨fun hbooted => ?_, fun hunbooted => ?_⟩
  · rw [command_tick_of_booted hbooted]
    exact ⟨respond_outcome_of_faults_eq s.tick_faults, s.tick_dt_toNat, s.tick_redraw, s.tick_fb, s.tick_pend,
      s.tick_frame⟩
  · rw [command_tick_of_not_booted hunbooted]
    exact ⟨rfl, rfl⟩

end Sys2Proof.Machine
end

section
/-! PROOFS. The first STEP of spec/70_reset_and_hazards.md R284. The one idea: after boot a STEP runs the instruction
its fetched word decodes to (`step_eq_exec_of_decodeWord`); RESET and the copy of LOAD leave `pc` at 0x200, where the
copy has put the first two loaded bytes and RESET alone two zero bytes. -/

namespace Sys2Proof.Machine

/-! ## The STEP of a fetched word (R121, R123) -/

/-- Decoding the two fetched bytes is decoding the fetched word; no byte is left over. -/
theorem State.decode_fetchBytes (s : State) :
    decode s.fetchBytes = (decodeWord s.fetchWord).map fun i => (i, []) := rfl

/-- After boot, a STEP whose fetched word decodes runs that instruction on the state after the fetch's advance. -/
theorem step_eq_exec_of_decodeWord {s : State} {i : Instr} (hbooted : s.booted = true)
    (hdecode : decodeWord s.fetchWord = .ok i) : step s = exec i s.advance := by
  rw [step, if_pos hbooted, s.decode_fetchBytes, hdecode]
  rfl

/-! ## The state after RESET and after LOAD (R280, R281, R284) -/

/-- Above the font, memory is 0x00 at RESET. -/
theorem resetByte_of_font_le {c : Config} {a : Nat} (h : 80 ≤ a) : resetByte c a = 0 := dif_neg (Nat.not_lt.2 h)

namespace State

variable (s : State)

@[simp] theorem resetCommand_pc : s.resetCommand.pc = 0x200 := rfl
@[simp] theorem resetCommand_booted : s.resetCommand.booted = true := rfl
@[simp] theorem resetCommand_memRead (a : Nat) : s.resetCommand.memRead a = resetByte s.cfg (reduceAddr a) := rfl

theorem resetCommand_fetchWord : s.resetCommand.fetchWord = 0x0000 := by
  have hhi : s.resetCommand.memRead 0x200 = 0 :=
    (s.resetCommand_memRead _).trans (resetByte_of_font_le (by decide))
  have hlo : s.resetCommand.memRead 0x201 = 0 :=
    (s.resetCommand_memRead _).trans (resetByte_of_font_le (by decide))
  exact congrArg₂ wordOfBytes hhi hlo

theorem load_of_fits {bs : List Byte} (hfits : bs.length ≤ maxProg) :
    s.load bs = s.resetCommand.storeBytes progBase bs := if_neg (Nat.not_lt.2 hfits)

theorem load_pc {bs : List Byte} (hfits : bs.length ≤ maxProg) : (s.load bs).pc = 0x200 := by
  rw [s.load_of_fits hfits, storeBytes_eq]
  exact s.resetCommand_pc

theorem load_booted {bs : List Byte} (hfits : bs.length ≤ maxProg) : (s.load bs).booted = true := by
  rw [s.load_of_fits hfits, storeBytes_eq]
  exact s.resetCommand_booted

/-- A loaded byte reads back at its place from 0x200 on (R281). -/
theorem load_memRead {bs : List Byte} (hfits : bs.length ≤ maxProg) (k : Nat) (hk : k < bs.length) :
    (s.load bs).memRead (progBase + k) = bs[k] := by
  rw [s.load_of_fits hfits]
  exact storeBytes_memRead_inside _ _ _ (hfits.trans (by decide)) k hk

/-- The word the first fetch after LOAD reads: the first two loaded bytes, big-endian (R284). -/
theorem load_fetchWord {hi lo : Byte} {bs : List Byte} (hfits : (hi :: lo :: bs).length ≤ maxProg) :
    (s.load (hi :: lo :: bs)).fetchWord = hi ++ lo := by
  have hhi : (s.load (hi :: lo :: bs)).memRead 0x200 = hi := s.load_memRead hfits 0 (by simp)
  have hlo : (s.load (hi :: lo :: bs)).memRead 0x201 = lo := s.load_memRead hfits 1 (by simp)
  rw [fetchWord, s.load_pc hfits]
  exact congrArg₂ wordOfBytes hhi hlo

end State

/-- Settles O57: LOAD leaves `pc` at 0x200 with the first two loaded bytes there, and the STEP runs the word they are;
RESET leaves zero bytes there. -/
theorem firstStepRunsTheLoadedWord : Obligations.FirstStepRunsTheLoadedWord := by
  refine ⟨fun hi lo bs s i hlen hdecode => ?_, fun s => ⟨s.resetCommand_pc, s.resetCommand_fetchWord⟩⟩
  have hfits : (hi :: lo :: bs).length ≤ maxProg := hlen
  have hpc := s.load_pc hfits
  have hword := s.load_fetchWord hfits
  refine ⟨s.load (hi :: lo :: bs), rfl, hpc, hword, ?_⟩
  rw [← hword] at hdecode
  rw [step_eq_exec_of_decodeWord (s.load_booted hfits) hdecode, State.advance_eq_setPc, hpc]
  rfl

end Sys2Proof.Machine
end

section
/-! PROOFS. The decoder against the encoder, and the words that are no instruction (spec/30_encoding.md R93, R97 to
R101). The one idea for the round trip: an instruction's word selects the instruction's own row, and its fields are the
instruction's operands (`Instr.withFieldsOf_encodeWord`). -/

namespace Sys2Proof

/-! ## Encode, then decode (R97) -/

/-- The fields of an instruction's own word are the instruction's operands, ignored ones included. -/
theorem Instr.withFieldsOf_encodeWord (i : Instr) : i.withFieldsOf (encodeWord i) = i := by
  cases i <;> simp [Instr.withFieldsOf, encodeWord]

theorem decodeWord_encodeWord (i : Instr) : decodeWord (encodeWord i) = .ok i := by
  obtain ⟨hsel, -⟩ := Laws.RowWord.all i
  rw [decodeWord_of_selects _ i hsel, i.withFieldsOf_encodeWord]

/-- Settles O3: encoding inverts decoding (`encodeWord_of_decodeWord`) and decoding inverts encoding. -/
theorem decodeEncodeAgree : Obligations.DecodeEncodeAgree := by
  refine ⟨fun i rest => ?_, fun w i => ⟨encodeWord_of_decodeWord, ?_⟩⟩
  · rw [encode, decode_bytesOfWord, decodeWord_encodeWord]
    rfl
  · rintro rfl
    exact decodeWord_encodeWord i

/-! ## Words that are no instruction (R95, R98 to R101) -/

section
variable {f : Fields}

theorem decodeSet0_error : (∃ e, decodeSet0 f = .error e) ↔ f.nn ∉ ([0xE0, 0xEE] : List Byte) := by
  unfold decodeSet0
  split_ifs <;> simp_all

theorem decodeSet8_error :
    (∃ e, decodeSet8 f = .error e) ↔ f.n ∉ ([0, 1, 2, 3, 4, 5, 6, 7, 0xE] : List Nibble) := by
  unfold decodeSet8
  split_ifs <;> simp_all

theorem decodeSetE_error : (∃ e, decodeSetE f = .error e) ↔ f.nn ∉ ([0x9E, 0xA1] : List Byte) := by
  unfold decodeSetE
  split_ifs <;> simp_all

theorem decodeSetF_error : (∃ e, decodeSetF f = .error e) ↔
    f.nn ∉ ([0x07, 0x0A, 0x15, 0x18, 0x1E, 0x29, 0x33, 0x55, 0x65] : List Byte) := by
  unfold decodeSetF
  split_ifs <;> simp_all

end

/-- The first level hands a word on to one of the four sub-dispatches or answers an instruction (R95). -/
theorem decodeWord_error_iff (w : Word) : (∃ e, decodeWord w = .error e) ↔
    (setOf w = 0x0 ∧ ∃ e, decodeSet0 (fieldsOf w) = .error e) ∨
    (setOf w = 0x8 ∧ ∃ e, decodeSet8 (fieldsOf w) = .error e) ∨
    (setOf w = 0xE ∧ ∃ e, decodeSetE (fieldsOf w) = .error e) ∨
    (setOf w = 0xF ∧ ∃ e, decodeSetF (fieldsOf w) = .error e) := by
  unfold decodeWord
  match hset : setOf w with
  | 0x0 => rw [dispatch_set0 hset]; simp
  | 0x1 => rw [dispatch_set1 hset]; simp
  | 0x2 => rw [dispatch_set2 hset]; simp
  | 0x3 => rw [dispatch_set3 hset]; simp
  | 0x4 => rw [dispatch_set4 hset]; simp
  | 0x5 => rw [dispatch_set5 hset]; simp
  | 0x6 => rw [dispatch_set6 hset]; simp
  | 0x7 => rw [dispatch_set7 hset]; simp
  | 0x8 => rw [dispatch_set8 hset]; simp
  | 0x9 => rw [dispatch_set9 hset]; simp
  | 0xA => rw [dispatch_setA hset]; simp
  | 0xB => rw [dispatch_setB hset]; simp
  | 0xC => rw [dispatch_setC hset]; simp
  | 0xD => rw [dispatch_setD hset]; simp
  | 0xE => rw [dispatch_setE hset]; simp
  | 0xF => rw [dispatch_setF hset]; simp
  | ⟨_ + 16, hlt⟩ => omega

/-- Settles O4: an invalid word fails in one of the four sub-dispatches, each of which fails on its unmatched
selectors. -/
theorem invalidWordsAreTheUnmatchedSelectors : Obligations.InvalidWordsAreTheUnmatchedSelectors := by
  intro w
  rw [decodeWord_error_iff, decodeSet0_error, decodeSet8_error, decodeSetE_error, decodeSetF_error]
  rfl

/-- Settles O5: seven words, one of each format and an invalid one, are decoded. -/
theorem sampleWordsDecode : Obligations.SampleWordsDecode := by
  unfold Obligations.SampleWordsDecode
  decide

end Sys2Proof
end

section
/-! PROOFS. Memory as the spec reads and writes it (spec/20_memory.md R60 to R63). The one idea: a canonical memory lists
no address from 4096 on, so it reads the same as another one at every address as soon as it does so at the reduced
ones. -/

namespace Sys2Proof.Machine

/-- A canonical memory lists no address outside the space. -/
theorem Memory.find_of_memSize_le (c : Config) {lo a : Nat} (ha : memSize ≤ a) {m : Memory}
    (w : wfFrom c lo m = true) : find m a = none := by
  induction m generalizing lo with
  | nil => rfl
  | cons e m ih =>
    obtain ⟨b, u⟩ := e
    obtain ⟨-, hb, -, wm⟩ := (wfFrom_cons c).1 w
    rw [find, if_neg (by omega)]
    exact ih wm

namespace State

variable (s : State)

/-- A read reduces its address modulo 4096 (R61). -/
theorem memRead_mod (a : Nat) : s.memRead (a % 4096) = s.memRead a :=
  congrArg (Memory.read s.cfg s.mem) (Nat.mod_mod a 4096)

/-- A write changes the byte at its reduced address at most. -/
theorem memWrite_frame (a : Nat) (b : Byte) : Frame s (s.memWrite a b) { mem := fun p => p = a % 4096 } :=
  s.withMem_frame fun q hq => (s.memWrite_memRead a b q).trans (if_neg fun h => hq h.symm)

/-- Canonical memories that read the same are the same list. -/
theorem mem_ext {s t : State} (hs : s.Inv) (ht : t.Inv) (hcfg : s.cfg = t.cfg)
    (hread : ∀ a, s.memRead a = t.memRead a) : s.mem = t.mem := by
  have ht' : Memory.wf s.cfg t.mem = true := hcfg ▸ ht
  refine Memory.wf_ext s.cfg hs ht' fun a => ?_
  by_cases ha : a < memSize
  · have h := hread a
    rwa [memRead, memRead, reduceAddr, Nat.mod_eq_of_lt ha, ← hcfg] at h
  · have hle := Nat.not_lt.1 ha
    rw [Memory.read, Memory.read, Memory.find_of_memSize_le _ hle hs, Memory.find_of_memSize_le _ hle ht']

end State

/-- Settles O9: reads and writes act on reduced addresses, and the canonical form is unique. -/
theorem memoryReadsBackWrites : Obligations.MemoryReadsBackWrites := by
  refine ⟨fun s a q b => ⟨(s.memRead_mod a).symm, s.memWrite_memRead a b q, s.memWrite_frame a b⟩, fun s t => ?_⟩
  exact State.mem_ext

end Sys2Proof.Machine
end

section
/-! PROOFS. The STEP on any word (spec/40_execute.md R121, R125) and the call stack (spec/41_control.md R141, R143).
The one idea: CALL and RET each answer one of two written-out states, by SP (`exec_call_of_lt`, `exec_call_of_full`,
`exec_ret_of_pos`, `exec_ret_of_empty`), and an error is one entry of the fault record and no other change. -/

namespace Sys2Proof.Machine

/-! ## Frames of the stack and of the fault record (R39, R40, R251) -/

namespace State

variable (s : State)

/-- A transfer through the call stack changes `pc` and the stack at most. -/
theorem withStackPc_frame (stack : Vector Word 16) (sp : Fin 17) (pc : Word) :
    Frame s { s with stack := stack, sp := sp, pc := pc } { pc := true, stack := true } where
  regs _ _ := rfl
  mem _ _ := rfl
  i _ := rfl
  pc := nofun
  stack := nofun
  dt _ := rfl
  display _ := ⟨rfl, rfl, rfl⟩
  faults _ := rfl
  out _ := rfl
  draws _ := rfl
  keys := rfl
  booted := rfl
  cfg := rfl

/-- An error changes the fault record alone. -/
theorem raise_frame (e : Fault) : Frame s (s.raise e) { faults := true } where
  regs r _ := s.raise_getV e r
  mem q _ := s.raise_memRead e q
  i _ := s.raise_i e
  pc _ := s.raise_pc e
  stack _ := ⟨s.raise_stack e, s.raise_sp e⟩
  dt _ := s.raise_dt e
  display _ := ⟨s.raise_fb e, s.raise_pend e, s.raise_redraw e⟩
  faults := nofun
  out _ := s.raise_out e
  draws _ := s.raise_draws e
  keys := s.raise_keys e
  booted := s.raise_booted e
  cfg := s.raise_cfg e

/-- A STEP that ends with an error changes `pc` and the fault record alone. -/
theorem advance_raise_frame (e : Fault) : Frame s (s.advance.raise e) { pc := true, faults := true } where
  regs _ _ := rfl
  mem _ _ := rfl
  i _ := rfl
  pc := nofun
  stack _ := ⟨rfl, rfl⟩
  dt _ := rfl
  display _ := ⟨rfl, rfl, rfl⟩
  faults := nofun
  out _ := rfl
  draws _ := rfl
  keys := rfl
  booted := rfl
  cfg := rfl

/-- The address an error records is the one the fetch was made at (R253). -/
theorem advance_instrAddr : s.advance.instrAddr = s.pc := BitVec.add_sub_cancel s.pc 2

end State

/-! ## The STEP (R121, R125) -/

theorem State.fetchWord_toNat (s : State) :
    s.fetchWord.toNat = 256 * (s.memRead s.pc.toNat).toNat + (s.memRead (s.pc.toNat + 1)).toNat := by
  rw [State.fetchWord, wordOfBytes, append_toNat]
  omega

/-- After boot, a STEP whose fetched word is no instruction advances and records the error. -/
theorem step_of_decodeWord_error {s : State} {e : DecodeError} (hbooted : s.booted = true)
    (hdecode : decodeWord s.fetchWord = .error e) :
    step s = .next (s.advance.raise (.invalidInstruction s.pc s.fetchWord)) := by
  rw [step, if_pos hbooted, s.decode_fetchBytes, hdecode]
  rfl

/-- Settles O7: the two cases of the decoded word, and the advance as one write of `pc`. -/
theorem stepRunsDecodedInstruction : Obligations.StepRunsDecodedInstruction := by
  refine fun s hbooted => ⟨s.fetchWord_toNat, BitVec.toNat_add s.pc 2, s.setPc_frame _, fun i hdecode => ?_,
    fun e hdecode => ?_⟩
  · exact step_eq_exec_of_decodeWord hbooted hdecode
  · exact ⟨_, step_of_decodeWord_error hbooted hdecode, rfl⟩

/-- Settles O8: the error is recorded on the state after the advance. -/
theorem invalidWordRecordsErrorAndAdvances : Obligations.InvalidWordRecordsErrorAndAdvances := by
  intro s e hbooted hdecode
  exact ⟨_, step_of_decodeWord_error hbooted hdecode, rfl, rfl, s.advance_raise_frame _⟩

/-! ## What CALL and RET answer, by SP (R141, R143) -/

section
variable (x : Nibble) (nnn : Addr12) {s : State}

theorem exec_call_of_lt (h : s.sp.val < 16) : exec (.call nnn) s =
    .next { s with stack := s.stack.set s.sp.val s.pc, sp := ⟨s.sp.val + 1, by omega⟩, pc := zextAddr nnn } := by
  change execCall nnn s = _
  rw [execCall, State.push, dif_pos h]
  rfl

theorem exec_call_of_full (h : s.sp.val = 16) : exec (.call nnn) s =
    .next (s.raise (.stackOverflow s.instrAddr (encodeWord (.call nnn)))) := by
  change execCall nnn s = _
  rw [execCall, (s.push_eq_none_iff s.pc).2 h]
  rfl

theorem exec_ret_of_pos (h : 0 < s.sp.val) : exec (.ret x) s =
    .next { s with
      sp := ⟨s.sp.val - 1, by have := s.sp.isLt; omega⟩
      pc := s.stack[s.sp.val - 1]'(by have := s.sp.isLt; omega) } := by
  change execRet x s = _
  rw [execRet, State.pop, dif_pos h]
  rfl

theorem exec_ret_of_empty (h : s.sp.val = 0) : exec (.ret x) s =
    .next (s.raise (.stackUnderflow s.instrAddr (encodeWord (.ret x)))) := by
  change execRet x s = _
  rw [execRet, s.pop_eq_none_iff.2 h]
  rfl

end

theorem encodeWord_call_toNat (nnn : Addr12) : (encodeWord (.call nnn)).toNat = 0x2000 + nnn.toNat :=
  packNNN_toNat 0x2 nnn

theorem encodeWord_ret_toNat (x : Nibble) : (encodeWord (.ret x)).toNat = 0xEE + 256 * x.val := by
  rw [encodeWord, packXNN_toNat, Nat.add_comm]
  change 0xEE + (0 + 256 * x.val) = _
  rw [Nat.zero_add]

/-- Settles O12: with SP below 16 the entry at SP is the address after the call, with SP = 16 the error is recorded. -/
theorem callPushesAndJumps : Obligations.CallPushesAndJumps := by
  refine ⟨fun w h => decodeWord_of_selects w (.call 0) h, fun nnn s => ⟨fun hlt => ?_, fun hfull => ?_⟩⟩
  · refine ⟨_, exec_call_of_lt nnn hlt, zextAddr_toNat nnn, rfl, Vector.getElem_set_self _, fun k hk hne => ?_,
      s.withStackPc_frame _ _ _⟩
    exact Vector.getElem_set_ne hlt hk hne.symm
  · exact ⟨_, _, exec_call_of_full nnn hfull, encodeWord_call_toNat nnn, rfl, s.raise_frame _⟩

/-- Settles O13: with SP above 0 `pc` is the entry below SP, with SP = 0 the error is recorded. -/
theorem returnPopsPc : Obligations.ReturnPopsPc := by
  refine ⟨fun w h => decodeWord_of_selects w (.ret 0) h, fun x s => ⟨fun hpos => ?_, fun hempty => ?_⟩⟩
  · exact ⟨_, exec_ret_of_pos x hpos, rfl, rfl, rfl, s.withStackPc_frame _ _ _⟩
  · exact ⟨_, _, exec_ret_of_empty x hempty, encodeWord_ret_toNat x, rfl, s.raise_frame _⟩

/-- Settles O14: the word recorded, that of the decoded instruction, is the fetched one (`encodeWord_of_decodeWord`), and
the address is the fetch's. -/
theorem stackErrorsRecordTheFetchedWord : Obligations.StackErrorsRecordTheFetchedWord := by
  refine fun s hbooted => ⟨fun nnn hdecode hfull => ?_, fun x hdecode hempty => ?_⟩
  · have hstep := (step_eq_exec_of_decodeWord hbooted hdecode).trans (exec_call_of_full nnn (s := s.advance) hfull)
    rw [encodeWord_of_decodeWord hdecode, s.advance_instrAddr] at hstep
    exact ⟨_, hstep, rfl, rfl, s.advance_raise_frame _⟩
  · have hstep := (step_eq_exec_of_decodeWord hbooted hdecode).trans (exec_ret_of_empty x (s := s.advance) hempty)
    rw [encodeWord_of_decodeWord hdecode, s.advance_instrAddr] at hstep
    exact ⟨_, hstep, rfl, rfl, s.advance_raise_frame _⟩

/-- Settles O15: the RET reads the very entry that the CALL wrote, below the SP that the CALL left. -/
theorem returnUndoesCall : Obligations.ReturnUndoesCall := by
  intro nnn x s t u hlt hcall hstack hsp
  cases (exec_call_of_lt nnn hlt).symm.trans hcall
  have hspv : u.sp.val = s.sp.val + 1 := congrArg Fin.val hsp
  refine ⟨_, exec_ret_of_pos x (by omega), ?_, Fin.ext (Nat.sub_eq_of_eq_add hspv)⟩
  simp [hspv, hstack]

/-! ## Ignored fields (R96) -/

/-- Apart from the fault record, RET does the same whatever its ignored field holds. -/
theorem exec_ret_ignores_x {a b : Nibble} {s t u : State} (ht : exec (.ret a) s = .next t)
    (hu : exec (.ret b) s = .next u) : { t with faults := u.faults } = u := by
  rcases Nat.eq_zero_or_pos s.sp.val with hempty | hpos
  · cases (exec_ret_of_empty a hempty).symm.trans ht
    cases (exec_ret_of_empty b hempty).symm.trans hu
    rfl
  · cases (exec_ret_of_pos a hpos).symm.trans ht
    cases (exec_ret_of_pos b hpos).symm.trans hu
    rfl

/-- Settles O6: the meanings do not take the ignored field, but for the word of RET's error. -/
theorem ignoredFieldsDoNotMatter : Obligations.IgnoredFieldsDoNotMatter := by
  refine fun s a b => ⟨rfl, fun hpos => ?_, fun t u => exec_ret_ignores_x, fun x y => ⟨?_, ?_, ?_, ?_⟩⟩
  · rw [exec_ret_of_pos a hpos, exec_ret_of_pos b hpos]
  · rw [exec_seReg, exec_seReg]
  · rw [exec_sneReg, exec_sneReg]
  · rw [exec_shr, exec_shr]
  · rfl

/-! ## The jump with offset V0 (R148) -/

theorem exec_jpV0 (nnn : Addr12) (s : State) :
    exec (.jpV0 nnn) s = .next (s.setPc (zextByte (s.getV 0) + zextAddr nnn)) := rfl

/-- A byte and a 12-bit address have a sum below 65536, so it is not reduced. -/
theorem zextByte_add_zextAddr_toNat (b : Byte) (nnn : Addr12) :
    (zextByte b + zextAddr nnn).toNat = b.toNat + nnn.toNat := by
  have hb := b.isLt
  have hn := nnn.isLt
  rw [BitVec.toNat_add, zextByte_toNat, zextAddr_toNat, Nat.mod_eq_of_lt (by omega)]

/-- Settles O18: the sum is not reduced when `pc` is written, but it is when `pc` is fetched from. -/
theorem jumpV0AddsOffset : Obligations.JumpV0AddsOffset := by
  refine ⟨fun w h => decodeWord_of_selects w (.jpV0 0) h, fun nnn s => ?_⟩
  have hpc := zextByte_add_zextAddr_toNat (s.getV 0) nnn
  have hv := (s.getV 0).isLt
  have hn := nnn.isLt
  refine ⟨_, exec_jpV0 nnn s, hpc, ?_, ?_, s.setPc_frame _⟩
  · rw [State.setPc_pc, hpc]
    omega
  · rw [State.memRead_mod, State.memRead_mod]
    rfl

end Sys2Proof.Machine
end

section
/-! PROOFS. 7XNN and CXNN of spec/42_register_immediate.md, 8XY7 and 8XYE of spec/43_alu.md. The one idea: the flag of
8XY7 is the same whether it is read before the result is written or after (`subnFlag_eq`), because the difference is at
most Vy exactly when it did not borrow. -/

namespace Sys2Proof.Machine

/-! ## 7XNN by Q_ADD_IMM (R161) -/

section
variable {c : Config} (vx nn : Byte)

theorem addImmResult_standard_toNat (h : c.addImm = .standard) :
    (addImmResult c vx nn).toNat = (vx.toNat + nn.toNat) % 256 := by
  simp only [addImmResult, h, BitVec.toNat_ofNat]

/-- The reference's sum, less 255 when it is above 255, always fits a byte. -/
theorem addImmResult_reference_toNat (h : c.addImm = .reference) : (addImmResult c vx nn).toNat =
    if 255 < vx.toNat + nn.toNat then vx.toNat + nn.toNat - 255 else vx.toNat + nn.toNat := by
  have hvx := vx.isLt
  have hnn := nn.isLt
  simp only [addImmResult, h, BitVec.toNat_ofNat]
  exact Nat.mod_eq_of_lt (by split <;> omega)

end

theorem exec_addImm (x : Nibble) (nn : Byte) (s : State) :
    exec (.addImm x nn) s = .next (s.setV x (addImmResult s.cfg (s.getV x) nn)) := rfl

/-- Settles O20: 7XNN is one write of Vx, with the sum of the parameter's value. -/
theorem addImmediateWritesVx : Obligations.AddImmediateWritesVx := by
  refine ⟨fun w h => decodeWord_of_selects w (.addImm 0 0) h, fun x nn s => ?_⟩
  have hvx := s.setV_getV_self x (addImmResult s.cfg (s.getV x) nn)
  refine ⟨_, exec_addImm x nn s, fun h => ?_, fun h => ?_, s.setV_frame x _⟩
  · rw [hvx, addImmResult_standard_toNat _ _ h]
  · rw [hvx, addImmResult_reference_toNat _ _ h]

/-! ## CXNN (R163) -/

section
variable (r : Byte) (x : Nibble) (nn : Byte) (s : State)

theorem rndWith_getV_self : (rndWith r x nn s).getV x = r &&& nn := s.setV_getV_self x _

theorem rndWith_frame : Frame s (rndWith r x nn s) { regs := fun q => q = x, draws := true } where
  regs _ hq := s.setV_getV_other _ hq
  mem _ _ := rfl
  i _ := rfl
  pc _ := rfl
  stack _ := ⟨rfl, rfl⟩
  dt _ := rfl
  display _ := ⟨rfl, rfl, rfl⟩
  faults _ := rfl
  out _ := rfl
  draws := nofun
  keys := rfl
  booted := rfl
  cfg := rfl

theorem exec_rnd : exec (.rnd x nn) s = .next (rndWith (Config.rnd s.draws) x nn s) := rfl

/-- No bit outside the mask is left. -/
theorem and_and_not_self : r &&& nn &&& ~~~nn = 0 := by
  rw [BitVec.and_assoc, BitVec.and_not_self]
  exact BitVec.and_zero

end

/-- Settles O22: CXNN is `rndWith` of the environment's byte, whose effect is known for every byte. -/
theorem randomMasksTheDraw : Obligations.RandomMasksTheDraw := by
  refine ⟨fun w h => decodeWord_of_selects w (.rnd 0 0) h, fun r x nn s => ?_, fun x nn s => ?_⟩
  · exact ⟨rndWith_getV_self r x nn s, rfl, rndWith_frame r x nn s⟩
  · refine ⟨_, _, exec_rnd x nn s, rfl, ?_⟩
    rw [rndWith_getV_self, and_and_not_self]

/-! ## 8XY7 by Q_SUBN_FLAG (R171, R179, R183) -/

/-- A difference modulo 256 is at most its first operand exactly when it did not borrow. -/
theorem noBorrowFlag_sub (a b : Byte) : noBorrowFlag a (a - b) = noBorrowFlag a b := by
  have ha := a.isLt
  have hb := b.isLt
  rw [Bool.eq_iff_iff, noBorrowFlag_eq_true, noBorrowFlag_eq_true, BitVec.toNat_sub]
  omega

/-- Both variants give the no-borrow flag of the operands read first: X = Y leaves two equal registers, and otherwise
the written difference takes the place of Vx. -/
theorem subnFlag_eq (x y : Nibble) (s : State) :
    subnFlag s (s.setV x (s.getV y - s.getV x)) x y = noBorrowFlag (s.getV y) (s.getV x) := by
  unfold subnFlag
  split
  · rfl
  · by_cases hxy : y = x
    · subst hxy
      simp [noBorrowFlag]
    · rw [State.setV_getV_self, State.setV_getV_other _ _ hxy, noBorrowFlag_sub]

theorem exec_subn (x y : Nibble) (s : State) : exec (.subn x y) s =
    .next (s.setVThenVF x (s.getV y - s.getV x) (noBorrowFlag (s.getV y) (s.getV x))) := by
  rw [← subnFlag_eq]
  rfl

/-- Settles O27: the difference of two bytes is taken modulo 256, and the no-borrow flag is written after it. -/
theorem reverseSubSetsNoBorrow : Obligations.ReverseSubSetsNoBorrow := by
  refine ⟨fun w h => decodeWord_of_selects w (.subn 0 0) h, fun x y s => ?_⟩
  refine ⟨_, exec_subn x y s, fun hx => ?_, ?_, s.setVThenVF_frame x _ _⟩
  · rw [s.setVThenVF_getV_of_ne_VF _ _ hx, byte_sub_toNat]
  · simp only [s.setVThenVF_getV_VF, noBorrowFlag_eq_true]

/-- Settles O29: what 8XY7 writes does not depend on Q_SUBN_FLAG (`exec_subn`), and it writes no parameter. -/
theorem subnFlagVariantsAgree : Obligations.SubnFlagVariantsAgree := by
  intro x y s t q h
  cases (exec_subn x y s).symm.trans h
  exact exec_subn x y _

/-! ## 8XYE by Q_SHL_MASK (R171, R180) -/

section
variable {c : Config} (b : Byte)

/-- Bit 7 of a byte is its quotient by 128. -/
theorem getLsbD_seven_toNat : (if b.getLsbD 7 then 1 else 0 : Byte).toNat = b.toNat / 128 := by
  have hb := b.isLt
  rw [BitVec.getLsbD, Nat.testBit_eq_decide_div_mod_eq]
  split
  case isTrue hset =>
    change 1 = _
    have := of_decide_eq_true hset
    omega
  case isFalse hclear =>
    change 0 = _
    have : ¬ b.toNat / 2 ^ 7 % 2 = 1 := fun h => hclear (decide_eq_true h)
    omega

/-- The mask 0xA0 looks at the bits 7 and 5. -/
theorem and_A0_ne_zero : (b &&& 0xA0#8 != 0#8) = true ↔ b.getLsbD 7 = true ∨ b.getLsbD 5 = true := by
  have hmask : 0xA0#8 = BitVec.twoPow 8 7 ||| BitVec.twoPow 8 5 := rfl
  rw [hmask, BitVec.and_or_distrib_left, BitVec.and_twoPow, BitVec.and_twoPow]
  cases b.getLsbD 7 <;> cases b.getLsbD 5 <;> decide

theorem shlFlag_mask80 (h : c.shlMask = .mask80) : shlFlag c b = b.getLsbD 7 := by rw [shlFlag, h]

theorem shlFlag_maskA0 (h : c.shlMask = .maskA0) : shlFlag c b = (b &&& 0xA0#8 != 0#8) := by rw [shlFlag, h]

theorem byte_shiftLeft_one_toNat : (b <<< 1).toNat = 2 * b.toNat % 256 := by
  rw [BitVec.toNat_shiftLeft, Nat.shiftLeft_eq, Nat.mul_comm, Nat.pow_one]

end

theorem exec_shl (x y : Nibble) (s : State) :
    exec (.shl x y) s = .next (s.setVThenVF x (s.getV x <<< 1) (shlFlag s.cfg (s.getV x))) := rfl

/-- Settles O28: the shift is twice Vx modulo 256, and the flag of the parameter's mask is written after it. -/
theorem shiftLeftSetsHighBit : Obligations.ShiftLeftSetsHighBit := by
  refine ⟨fun w h => decodeWord_of_selects w (.shl 0 0) h, fun x y s => ?_⟩
  refine ⟨_, exec_shl x y s, fun hx => ?_, fun hmask => ?_, fun hmask => ?_, s.setVThenVF_frame x _ _⟩
  · rw [s.setVThenVF_getV_of_ne_VF _ _ hx, byte_shiftLeft_one_toNat]
  · rw [s.setVThenVF_getV_VF, shlFlag_mask80 _ hmask, getLsbD_seven_toNat]
  · simp only [s.setVThenVF_getV_VF, shlFlag_maskA0 _ hmask, and_A0_ne_zero]

end Sys2Proof.Machine
end

section
/-! PROOFS. The display of spec/44_display.md. The one idea: a sprite is at most 8 columns wide and 15 rows high on a
64 x 32 grid, so its pixels are all different (`State.lands_unique`, `State.sprite_nodup`); each pixel is then updated
once, by the one bit that goes to it, from its state after the flush. -/

namespace Sys2Proof.Machine

/-! ## No pixel is visited twice (R197) -/

theorem colOf_inj {vx : Byte} {a b : Nat} (ha : a < 8) (hb : b < 8) (h : colOf vx a = colOf vx b) : a = b := by
  have : (vx.toNat + a) % 64 = (vx.toNat + b) % 64 := congrArg Fin.val h
  omega

theorem rowOf_inj {vy : Byte} {a b : Nat} (ha : a < 16) (hb : b < 16) (h : rowOf vy a = rowOf vy b) : a = b := by
  have : (vy.toNat + a) % 32 = (vy.toNat + b) % 32 := congrArg Fin.val h
  omega

/-- The pixels of one sprite row differ in the column, those of two rows in the row. -/
theorem spriteDots_nodup (vx vy : Byte) (n : Nibble) (byteAt : Nat → Byte) :
    ((spriteDots vx vy n.val byteAt).map fun d => (d.col, d.row)).Nodup := by
  rw [spriteDots, List.map_flatMap, List.nodup_flatMap]
  refine ⟨fun row _ => ?_, List.nodup_range.pairwise_of_forall_ne fun a ha b hb hab => ?_⟩
  · rw [rowDots, List.map_map]
    refine List.nodup_range.map_on fun a ha b hb hab => ?_
    exact colOf_inj (List.mem_range.1 ha) (List.mem_range.1 hb) (congrArg Prod.fst hab)
  · have hn := n.isLt
    have ha' := List.mem_range.1 ha
    have hb' := List.mem_range.1 hb
    intro p hpa hpb
    simp only [rowDots, List.map_map, List.mem_map, Function.comp_apply] at hpa hpb
    obtain ⟨_, -, rfl⟩ := hpa
    obtain ⟨_, -, hp⟩ := hpb
    exact hab (rowOf_inj (by omega) (by omega) (congrArg Prod.snd hp.symm))

namespace Canvas

/-- Canvases with the same pixels and the same two bits are equal. -/
theorem ext_px {k l : Canvas} (hfb : ∀ c r, k.fb.px c r = l.fb.px c r)
    (hpend : ∀ c r, k.pend.px c r = l.pend.px c r) (hredraw : k.redraw = l.redraw) (hhit : k.hit = l.hit) :
    k = l := by
  obtain ⟨fb, pend, redraw, hit⟩ := k
  obtain ⟨fb', pend', redraw', hit'⟩ := l
  cases Grid.ext_px hfb
  cases Grid.ext_px hpend
  cases hredraw
  cases hhit
  rfl

/-- The order of pixel updates does not matter when no pixel is updated twice: each pixel is left alone or has its one
dot's update, and each of the two bits asks whether some dot sets it. -/
theorem draw_perm (k : Canvas) {ds es : List Dot} (hperm : ds.Perm es)
    (once : (es.map fun d => (d.col, d.row)).Nodup) : k.draw ds = k.draw es := by
  have once' : (ds.map fun d => (d.col, d.row)).Nodup := (hperm.map _).nodup_iff.2 once
  have pixel (c : Col) (r : ScrRow) : (k.draw ds).fb.px c r = (k.draw es).fb.px c r ∧
      (k.draw ds).pend.px c r = (k.draw es).pend.px c r := by
    by_cases hit : ∃ d ∈ es, c = d.col ∧ r = d.row
    · obtain ⟨d, hd, rfl, rfl⟩ := hit
      obtain ⟨hf, hp⟩ := k.draw_at es once d hd
      obtain ⟨hf', hp'⟩ := k.draw_at ds once' d (hperm.mem_iff.2 hd)
      exact ⟨hf'.trans hf.symm, hp'.trans hp.symm⟩
    · have miss : ∀ d ∈ es, ¬ (c = d.col ∧ r = d.row) := fun d hd h => hit ⟨d, hd, h⟩
      obtain ⟨hf, hp⟩ := k.draw_outside es c r miss
      obtain ⟨hf', hp'⟩ := k.draw_outside ds c r fun d hd => miss d (hperm.mem_iff.1 hd)
      exact ⟨hf'.trans hf.symm, hp'.trans hp.symm⟩
  refine ext_px (fun c r => (pixel c r).1) (fun c r => (pixel c r).2) ?_ ?_
  · rw [draw_redraw, draw_redraw, hperm.any_eq]
  · rw [draw_hit k ds once', draw_hit k es once, hperm.any_eq]

end Canvas

theorem State.sprite_nodup (s : State) (x y n : Nibble) :
    ((s.sprite x y n).map fun d => (d.col, d.row)).Nodup :=
  spriteDots_nodup _ _ n _

/-- Settles O33: the sprite's dots go to different pixels, and then any order draws the same. -/
theorem drawOrderCannotMatter : Obligations.DrawOrderCannotMatter := by
  intro x y n s
  exact ⟨s.sprite_nodup x y n, fun dots hperm k => k.draw_perm hperm (s.sprite_nodup x y n)⟩

/-! ## The sprite's dots, as the statements name them (R194) -/

namespace State

variable (s : State) (x y n : Nibble)

/-- The sprite bit with index `bit` in row `row`. -/
def spriteBit (row bit : Nat) : Bool := (s.memRead (s.i.toNat + row)).getLsbD (7 - bit)

theorem mem_sprite {d : Dot} : d ∈ s.sprite x y n ↔
    ∃ row bit, s.lands x y n row bit d.col d.row ∧ d.bit = s.spriteBit row bit := by
  rw [sprite, mem_spriteDots]
  constructor
  · rintro ⟨row, hrow, bit, hbit, rfl⟩
    exact ⟨row, bit, ⟨hrow, hbit, rfl, rfl⟩, rfl⟩
  · obtain ⟨c, r, b⟩ := d
    rintro ⟨row, bit, ⟨hrow, hbit, hc, hr⟩, rfl⟩
    cases (Fin.ext hc : c = colOf (s.getV x) bit)
    cases (Fin.ext hr : r = rowOf (s.getV y) row)
    exact ⟨row, hrow, bit, hbit, rfl⟩

/-- At most one sprite bit goes to a pixel. -/
theorem lands_unique {x y n : Nibble} {row bit row' bit' : Nat} {c : Col} {r : ScrRow}
    (h : s.lands x y n row bit c r) (h' : s.lands x y n row' bit' c r) : row = row' ∧ bit = bit' := by
  obtain ⟨hrow, hbit, hc, hr⟩ := h
  obtain ⟨hrow', hbit', hc', hr'⟩ := h'
  have hn := n.isLt
  exact ⟨rowOf_inj (by omega) (by omega) (Fin.ext (hr.symm.trans hr')),
    colOf_inj hbit hbit' (Fin.ext (hc.symm.trans hc'))⟩

/-- A pixel some bit goes to is covered when that bit is 1. -/
theorem covered_iff_of_lands {x y n : Nibble} {row bit : Nat} {c : Col} {r : ScrRow}
    (h : s.lands x y n row bit c r) : s.covered x y n c r ↔ s.spriteBit row bit = true := by
  refine ⟨fun ⟨row', bit', h', hset⟩ => ?_, fun hset => ⟨row, bit, h, hset⟩⟩
  obtain ⟨rfl, rfl⟩ := s.lands_unique h h'
  exact hset

theorem covered_iff_mem_sprite {x y n : Nibble} {c : Col} {r : ScrRow} :
    s.covered x y n c r ↔ { col := c, row := r, bit := true } ∈ s.sprite x y n := by
  rw [mem_sprite]
  exact exists_congr fun _ => exists_congr fun _ => and_congr_right fun _ => eq_comm

/-! ## The canvas DXYN leaves (R192 to R196) -/

/-- The canvas after the flush, whose framebuffer is the logical display. -/
theorem flush_fb_px (c : Col) (r : ScrRow) : (Canvas.flush s.fb s.pend s.redraw).fb.px c r = s.logical c r :=
  Canvas.flush_fb ..

theorem drawn_outside {c : Col} {r : ScrRow} (h : ¬ s.boxed x y n c r) :
    (s.drawn x y n).fb.px c r = s.logical c r ∧ (s.drawn x y n).pend.px c r = false := by
  have miss : ∀ d ∈ s.sprite x y n, ¬ (c = d.col ∧ r = d.row) := by
    rintro d hd ⟨rfl, rfl⟩
    obtain ⟨row, bit, hl, -⟩ := (s.mem_sprite x y n).1 hd
    exact h ⟨row, bit, hl⟩
  obtain ⟨hf, hp⟩ := Canvas.draw_outside (Canvas.flush s.fb s.pend s.redraw) _ c r miss
  exact ⟨hf.trans (s.flush_fb_px c r), hp.trans (Canvas.flush_pend ..)⟩

theorem drawn_at {c : Col} {r : ScrRow} {row bit : Nat} (h : s.lands x y n row bit c r) :
    (s.drawn x y n).fb.px c r = (s.logical c r || (s.logical c r ^^ s.spriteBit row bit)) ∧
      (s.drawn x y n).pend.px c r = !(s.logical c r ^^ s.spriteBit row bit) := by
  have hd : { col := c, row := r, bit := s.spriteBit row bit } ∈ s.sprite x y n :=
    (s.mem_sprite x y n).2 ⟨row, bit, h, rfl⟩
  have hat := Canvas.draw_at (Canvas.flush s.fb s.pend s.redraw) _ (s.sprite_nodup x y n) _ hd
  rwa [s.flush_fb_px, Canvas.flush_pend, Bool.false_or] at hat

/-- The collision bit: some covered pixel was on in the logical display. -/
theorem drawn_hit :
    (s.drawn x y n).hit = true ↔ ∃ c r, s.logical c r = true ∧ s.covered x y n c r := by
  rw [drawn, Canvas.draw_hit _ _ (s.sprite_nodup x y n), Canvas.flush_hit, Bool.false_or, List.any_eq_true]
  simp only [flush_fb_px, Bool.and_eq_true, covered_iff_mem_sprite]
  constructor
  · rintro ⟨⟨c, r, _⟩, hd, hon, rfl⟩
    exact ⟨c, r, hon, hd⟩
  · rintro ⟨c, r, hon, hd⟩
    exact ⟨_, hd, hon, rfl⟩

/-- `redraw` ends true when it was, when the flush turned a pixel off, and when a 1-bit changed a pixel. -/
theorem drawn_redraw : (s.drawn x y n).redraw = true ↔
    s.redraw = true ∨ (∃ c r, s.pend.px c r = true ∧ s.fb.px c r = true) ∨ ∃ c r, s.covered x y n c r := by
  have hbits : (s.sprite x y n).any Dot.bit = true ↔ ∃ c r, s.covered x y n c r := by
    simp only [List.any_eq_true, covered_iff_mem_sprite]
    constructor
    · rintro ⟨⟨c, r, _⟩, hd, rfl⟩
      exact ⟨c, r, hd⟩
    · rintro ⟨c, r, hd⟩
      exact ⟨_, hd, rfl⟩
  rw [drawn, Canvas.draw_redraw, Bool.or_eq_true, hbits, Canvas.flush_redraw, or_assoc]
  simp only [and_comm]

/-- DXYN's XOR on the logical display (R198). -/
theorem drawn_logical (c : Col) (r : ScrRow) :
    ((s.drawn x y n).fb.px c r && !(s.drawn x y n).pend.px c r) = true ↔
      ¬ (s.logical c r = true ↔ s.covered x y n c r) := by
  by_cases hbox : s.boxed x y n c r
  · obtain ⟨row, bit, hl⟩ := hbox
    obtain ⟨hf, hp⟩ := s.drawn_at x y n hl
    rw [hf, hp, s.covered_iff_of_lands hl]
    cases s.logical c r <;> cases s.spriteBit row bit <;> decide
  · obtain ⟨hf, hp⟩ := s.drawn_outside x y n hbox
    have huncovered : ¬ s.covered x y n c r := fun ⟨row, bit, hl, _⟩ => hbox ⟨row, bit, hl⟩
    rw [hf, hp]
    simp [huncovered]

/-! ## Frames of the display writes (R190) -/

theorem setDisplay_frame (g p : Grid) (d : Bool) : Frame s (s.setDisplay g p d) { display := true } where
  regs r _ := s.setDisplay_getV g p d r
  mem q _ := s.setDisplay_memRead g p d q
  i _ := s.setDisplay_i g p d
  pc _ := s.setDisplay_pc g p d
  stack _ := ⟨s.setDisplay_stack g p d, s.setDisplay_sp g p d⟩
  dt _ := s.setDisplay_dt g p d
  display := nofun
  faults _ := s.setDisplay_faults g p d
  out _ := s.setDisplay_out g p d
  draws _ := s.setDisplay_draws g p d
  keys := s.setDisplay_keys g p d
  booted := s.setDisplay_booted g p d
  cfg := s.setDisplay_cfg g p d

theorem setDisplay_setVF_frame (g p : Grid) (d f : Bool) :
    Frame s ((s.setDisplay g p d).setVF f) { regs := fun r => r = 15, display := true } where
  regs _ hr := (s.setDisplay g p d).setVF_getV_other f hr
  mem _ _ := rfl
  i _ := rfl
  pc _ := rfl
  stack _ := ⟨rfl, rfl⟩
  dt _ := rfl
  display := nofun
  faults _ := rfl
  out _ := rfl
  draws _ := rfl
  keys := rfl
  booted := rfl
  cfg := rfl

/-- A flag byte is 1 exactly when the flag is set. -/
theorem setVF_getV_VF_eq_one (f : Bool) : (s.setVF f).getV 15 = 1 ↔ f = true := by
  rw [setVF_getV_VF]
  cases f <;> decide

theorem setVF_getV_VF_eq_zero (f : Bool) : (s.setVF f).getV 15 = 0 ↔ f = false := by
  rw [setVF_getV_VF]
  cases f <;> decide

end State

/-! ## What the display instructions answer -/

theorem exec_cls (x : Nibble) (s : State) : exec (.cls x) s = .next (s.setDisplay Grid.blank Grid.blank true) := rfl

theorem exec_drw (x y n : Nibble) (s : State) : exec (.drw x y n) s =
    .next ((s.setDisplay (s.drawn x y n).fb (s.drawn x y n).pend (s.drawn x y n).redraw).setVF
      (s.drawn x y n).hit) := rfl

/-- Settles O30: 00E0 installs two blank grids and sets `redraw`. -/
theorem clearBlanksDisplay : Obligations.ClearBlanksDisplay := by
  refine ⟨fun w h => decodeWord_of_selects w (.cls 0) h, fun x s => ?_⟩
  exact ⟨_, exec_cls x s, fun c r => ⟨Grid.px_blank c r, Grid.px_blank c r⟩, rfl, s.setDisplay_frame _ _ _⟩

/-- Settles O31: DXYN's display is the drawn canvas, pixel by pixel, and VF its collision bit. -/
theorem drawFlushesThenXorsSprite : Obligations.DrawFlushesThenXorsSprite := by
  refine ⟨fun w h => decodeWord_of_selects w (.drw 0 0 0) h, fun x y n s => ?_⟩
  refine ⟨_, exec_drw x y n s, fun c r => s.drawn_outside x y n, fun c r row bit => s.drawn_at x y n,
    (State.setVF_getV_VF_eq_one _ _).trans (s.drawn_hit x y n), ?_, s.drawn_redraw x y n,
    s.setDisplay_setVF_frame _ _ _ _⟩
  rw [State.setVF_getV_VF_eq_zero, State.setVF_getV_VF_eq_one]
  exact (s.drawn x y n).hit.eq_false_or_eq_true.symm

/-- Settles O32: the logical display of the drawn canvas is the XOR, VF its collision bit, and a blank framebuffer has
a blank logical display. -/
theorem drawXorsLogicalDisplay : Obligations.DrawXorsLogicalDisplay := by
  refine ⟨fun x y n s t h => ?_, fun x s t h c r => ?_⟩
  · cases (exec_drw x y n s).symm.trans h
    exact ⟨s.drawn_logical x y n, (State.setVF_getV_VF_eq_one _ _).trans (s.drawn_hit x y n)⟩
  · cases (exec_cls x s).symm.trans h
    rw [State.logical, State.setDisplay_fb, Grid.px_blank, Bool.false_and]

/-- Settles O34: with no row no pixel is boxed and none is covered, so the canvas is as flushed. -/
theorem drawWithNoRowsOnlyFlushes : Obligations.DrawWithNoRowsOnlyFlushes := by
  intro x y s
  have hbox (c : Col) (r : ScrRow) : ¬ s.boxed x y 0 c r := fun ⟨_, _, hrow, _⟩ => Nat.not_lt_zero _ hrow
  have hcov (c : Col) (r : ScrRow) : ¬ s.covered x y 0 c r := fun ⟨row, bit, hl, _⟩ => hbox c r ⟨row, bit, hl⟩
  have hhit : (s.drawn x y 0).hit = false :=
    Bool.eq_false_iff.2 fun h => by
      obtain ⟨c, r, -, h⟩ := (s.drawn_hit x y 0).1 h
      exact hcov c r h
  refine ⟨_, exec_drw x y 0 s, (State.setVF_getV_VF_eq_zero _ _).2 hhit, fun c r => s.drawn_outside x y 0 (hbox c r),
    (s.drawn_redraw x y 0).trans ?_, s.setDisplay_setVF_frame _ _ _ _⟩
  simp only [hcov, exists_false, or_false]

end Sys2Proof.Machine
end

section
/-! PROOFS. FX0A and the key commands of spec/45_keypad.md. The one idea: the pressed codes are listed in rising order
(`State.keysDown_pairwise`), so the head of the list, KEY_PICK's lowest, is the smallest. -/

namespace Sys2Proof.Machine

/-! ## The key FX0A picks (R214, R215) -/

namespace State

variable (s : State)

theorem keysDown_pairwise : s.keysDown.Pairwise (· < ·) := (List.pairwise_lt_finRange 16).filter _

/-- Under `lowest` no pressed code is smaller than the one picked. -/
theorem pickKey_le {k j : Nibble} (hrule : s.cfg.keyPick = .lowest) (hpick : s.pickKey = some k)
    (hdown : s.keys[j.val] = true) : k ≤ j := by
  rw [pickKey, hrule] at hpick
  obtain ⟨js, hjs⟩ := List.head?_eq_some_iff.1 hpick
  have hj : j ∈ k :: js := hjs ▸ (s.mem_keysDown j).2 hdown
  have hsorted : (k :: js).Pairwise (· < ·) := hjs ▸ s.keysDown_pairwise
  rcases List.mem_cons.1 hj with rfl | hmem
  · exact le_rfl
  · exact le_of_lt (List.rel_of_pairwise_cons hsorted hmem)

end State

theorem keyByte_toNat (k : Nibble) : (keyByte k).toNat = k.val := by
  rw [keyByte, BitVec.toNat_ofNat]
  omega

theorem exec_ldK_of_none (x : Nibble) {s : State} (h : s.pickKey = none) :
    exec (.ldK x) s = .next (s.setPc (s.pc - 2)) := by
  change execLdK x s = _
  rw [execLdK, h]

theorem exec_ldK_of_some (x : Nibble) {s : State} {k : Nibble} (h : s.pickKey = some k) :
    exec (.ldK x) s = .next (s.setV x (keyByte k)) := by
  change execLdK x s = _
  rw [execLdK, h]

/-- Settles O36: FX0A is one write of `pc` when no key is picked, and one write of Vx when one is. -/
theorem keyWaitRefetchesOrPicks : Obligations.KeyWaitRefetchesOrPicks := by
  refine ⟨fun w h => decodeWord_of_selects w (.ldK 0) h, fun x s => ⟨fun hup => ?_, fun ⟨j, hj⟩ => ?_⟩⟩
  · exact ⟨_, exec_ldK_of_none x (s.pickKey_eq_none.2 hup), rfl, s.setPc_frame _⟩
  · have hsome : s.pickKey ≠ none := fun hnone => by
      rw [s.pickKey_eq_none.1 hnone j] at hj
      cases hj
    obtain ⟨k, hk⟩ := Option.ne_none_iff_exists'.1 hsome
    refine ⟨_, k, exec_ldK_of_some x hk, s.pickKey_mem hk, ?_, fun hrule i => s.pickKey_le hrule hk, s.setV_frame x _⟩
    rw [State.setV_getV_self, keyByte_toNat]

/-! ## The key commands (R210) -/

/-- A command that records an error answers it (R256). -/
theorem respond_outcome_of_faults_append {s t : State} {e : Fault} (h : t.faults = s.faults ++ [e]) :
    (respond s t).outcome = .error e := by
  rw [respond, h, List.drop_left]
  rfl

namespace State

variable (s : State) {k : Byte} (down : Bool)

theorem setKey_of_code (h : k.toNat < 16) : s.setKey k down = { s with keys := s.keys.set k.toNat down } := dif_pos h

theorem setKey_of_no_code (h : 15 < k.toNat) : s.setKey k down = s.raise (.keyCodeOutOfRange k) :=
  dif_neg (Nat.not_lt.2 h)

end State

/-- Settles O37: with a code the command writes one entry of the key set, without one it records the error. -/
theorem keyCommandsChangeOneKey : Obligations.KeyCommandsChangeOneKey := by
  intro k s
  have hdown : command (.keyDown k) s = respond s (s.setKey k true) := rfl
  have hup : command (.keyUp k) s = respond s (s.setKey k false) := rfl
  refine ⟨fun hcode => ?_, fun hcode c hc => ?_⟩
  · simp only [hdown, hup, s.setKey_of_code _ hcode]
    refine ⟨respond_outcome_of_faults_eq rfl, respond_outcome_of_faults_eq rfl, Vector.getElem_set_self hcode,
      Vector.getElem_set_self hcode, fun j hj hne => ⟨?_, ?_⟩, rfl, rfl⟩
    · exact Vector.getElem_set_ne hcode hj hne.symm
    · exact Vector.getElem_set_ne hcode hj hne.symm
  · have hcommand : command c s = respond s (s.raise (.keyCodeOutOfRange k)) := by
      rcases hc with rfl | rfl
      · rw [hdown, s.setKey_of_no_code _ hcode]
      · rw [hup, s.setKey_of_no_code _ hcode]
    rw [hcommand]
    exact ⟨respond_outcome_of_faults_append rfl, rfl⟩

end Sys2Proof.Machine
end

section
/-! PROOFS. FX18, FX55 and FX65 of spec/46_misc.md. The one idea: FX55's writes are a loop over the registers whose last
write to an address is the byte it reads as (`State.dumpRegs_succ_last`); under `indexed` the addresses of the at most
16 registers differ modulo 4096, so every stored byte reads back. -/

namespace Sys2Proof.Machine

/-! ## FX18 (R228) -/

theorem State.emit_frame (s : State) (e : Event) : Frame s (s.emit e) { out := true } where
  regs r _ := s.emit_getV e r
  mem q _ := s.emit_memRead e q
  i _ := s.emit_i e
  pc _ := s.emit_pc e
  stack _ := ⟨s.emit_stack e, s.emit_sp e⟩
  dt _ := s.emit_dt e
  display _ := ⟨s.emit_fb e, s.emit_pend e, s.emit_redraw e⟩
  faults _ := s.emit_faults e
  out := nofun
  draws _ := s.emit_draws e
  keys := s.emit_keys e
  booted := s.emit_booted e
  cfg := s.emit_cfg e

theorem exec_ldStVx (x : Nibble) (s : State) : exec (.ldStVx x) s = .next (s.emit (.beep (s.getV x))) := rfl

/-- Settles O39: FX18 is one emitted event. -/
theorem beepEmitsVx : Obligations.BeepEmitsVx := by
  refine ⟨fun w h => decodeWord_of_selects w (.ldStVx 0) h, fun x s => ?_⟩
  exact ⟨_, exec_ldStVx x s, s.emit_out _, s.emit_frame _⟩

/-! ## FX55 (R232) -/

namespace State

variable (s : State)

theorem dumpAddr_indexed (h : s.cfg.dumpAddr = .indexed) (k : Nat) : s.dumpAddr k = s.i.toNat + k := by
  rw [dumpAddr, h]
  rfl

theorem dumpAddr_reference (h : s.cfg.dumpAddr = .reference) (k : Nat) : s.dumpAddr k = s.i.toNat + 1 := by
  rw [dumpAddr, h]
  rfl

/-- FX55 changes the bytes at its stored addresses at most. -/
theorem dumpRegs_frame (x : Nibble) :
    Frame s (s.dumpRegs x) { mem := fun a => ∃ k ≤ x.val, a = reduceAddr (s.dumpAddr k) } := by
  have heq := s.dumpRegs_eq x
  rw [heq]
  refine s.withMem_frame fun q hq => ?_
  rw [← heq]
  refine s.foldl_memWrite_outside s.dumpAddr (fun k => s.getV (Fin.ofNat 16 k)) _ q fun k hk he => hq ⟨k, ?_, he.symm⟩
  exact Nat.lt_succ_iff.1 (List.mem_range.1 hk)

/-- The last byte stored is Vx, whatever the addresses. -/
theorem dumpRegs_memRead_last (x : Nibble) : (s.dumpRegs x).memRead (s.dumpAddr x.val) = s.getV x := by
  rw [dumpRegs, dumpRegs_succ_last, if_pos rfl, Fin.ofNat_val_eq_self]

/-- Under `indexed` every register stored by the first `n` turns of the loop reads back: a later turn writes to another
address. -/
theorem foldl_dump_memRead (h : s.cfg.dumpAddr = .indexed) (n : Nat) (hn : n ≤ 16) (k : Nibble) (hk : k.val < n) :
    ((List.range n).foldl (fun t j => t.memWrite (s.dumpAddr j) (s.getV (Fin.ofNat 16 j))) s).memRead
      (s.i.toNat + k.val) = s.getV k := by
  induction n with
  | zero => omega
  | succ n ih =>
    rw [dumpRegs_succ_last, s.dumpAddr_indexed h]
    rcases Nat.lt_succ_iff_lt_or_eq.1 hk with hlt | rfl
    · rw [if_neg, ih (by omega) hlt]
      simp only [reduceAddr, memSize]
      omega
    · rw [if_pos rfl, Fin.ofNat_val_eq_self]

theorem dumpRegs_memRead (h : s.cfg.dumpAddr = .indexed) {x k : Nibble} (hk : k ≤ x) :
    (s.dumpRegs x).memRead (s.i.toNat + k.val) = s.getV k :=
  s.foldl_dump_memRead h (x.val + 1) (by omega) k (Nat.lt_succ_of_le hk)

@[simp] theorem dumpRegs_i (x : Nibble) : (s.dumpRegs x).i = s.i := by rw [dumpRegs_eq]
@[simp] theorem dumpRegs_pc (x : Nibble) : (s.dumpRegs x).pc = s.pc := by rw [dumpRegs_eq]

end State

theorem exec_ldMemVx (x : Nibble) (s : State) : exec (.ldMemVx x) s = .next (s.dumpRegs x) := rfl

/-- Settles O43: under `indexed` every stored byte reads back, under `reference` the last one does. -/
theorem dumpStoresRegisters : Obligations.DumpStoresRegisters := by
  refine ⟨fun w h => decodeWord_of_selects w (.ldMemVx 0) h, fun x s => ?_⟩
  refine ⟨_, exec_ldMemVx x s, fun h k hk => s.dumpRegs_memRead h hk, fun h => ?_, s.dumpRegs_frame x⟩
  rw [← s.dumpAddr_reference h x.val]
  exact s.dumpRegs_memRead_last x

/-! ## FX65 (R233) -/

/-- FX65 changes the registers V0 to Vx at most. -/
theorem State.loadRegs_frame (s : State) (x : Nibble) : Frame s (s.loadRegs x) { regs := fun r => r ≤ x } where
  regs r hr := (s.loadRegs_getV x r).trans (if_neg hr)
  mem q _ := by rw [loadRegs_eq]; rfl
  i _ := by rw [loadRegs_eq]
  pc _ := by rw [loadRegs_eq]
  stack _ := by rw [loadRegs_eq]; exact ⟨rfl, rfl⟩
  dt _ := by rw [loadRegs_eq]
  display _ := by rw [loadRegs_eq]; exact ⟨rfl, rfl, rfl⟩
  faults _ := by rw [loadRegs_eq]
  out _ := by rw [loadRegs_eq]
  draws _ := by rw [loadRegs_eq]
  keys := by rw [loadRegs_eq]
  booted := by rw [loadRegs_eq]
  cfg := by rw [loadRegs_eq]

theorem State.loadRegs_getV_of_le (s : State) {x k : Nibble} (h : k ≤ x) :
    (s.loadRegs x).getV k = s.memRead (s.i.toNat + k.val) := (s.loadRegs_getV x k).trans (if_pos h)

theorem exec_ldVxMem (x : Nibble) (s : State) : exec (.ldVxMem x) s = .next (s.loadRegs x) := rfl

/-- Settles O44: each loaded register holds the byte at its address, which a read reduces. -/
theorem loadFillsRegisters : Obligations.LoadFillsRegisters := by
  refine ⟨fun w h => decodeWord_of_selects w (.ldVxMem 0) h, fun x s => ?_⟩
  refine ⟨_, exec_ldVxMem x s, fun k hk => ?_, s.loadRegs_frame x⟩
  rw [s.loadRegs_getV_of_le hk, s.memRead_mod]

/-! ## FX55, then a load or a fetch (R234, R292) -/

/-- Settles O45: FX65 reads the bytes where FX55 stored the registers. -/
theorem dumpThenLoadRestores : Obligations.DumpThenLoadRestores := by
  intro x s t u hrule hdump hi hkept
  cases (exec_ldMemVx x s).symm.trans hdump
  refine ⟨_, exec_ldVxMem x u, fun k hk => ?_⟩
  rw [u.loadRegs_getV_of_le hk, hi, s.dumpRegs_i, hkept k.val hk, s.dumpRegs_memRead hrule hk]

/-- Settles O46: the fetch reads the two bytes where FX55 stored V0 and V1, since `pc` and I are equal modulo 4096. -/
theorem fetchSeesStoredInstruction : Obligations.FetchSeesStoredInstruction := by
  intro x s t hx hrule haddr hdump
  cases (exec_ldMemVx x s).symm.trans hdump
  have hread (k : Nibble) (hk : k ≤ x) : (s.dumpRegs x).memRead (s.pc.toNat + k.val) = s.getV k := by
    rw [← s.dumpRegs_memRead hrule hk, ← State.memRead_mod, Nat.add_mod, ← haddr, ← Nat.add_mod, State.memRead_mod]
  rw [State.fetchWord, s.dumpRegs_pc]
  exact congrArg₂ wordOfBytes (hread 0 (Fin.zero_le x)) (hread 1 hx)

end Sys2Proof.Machine
end

section
/-! PROOFS. What every instruction and every STEP keeps (spec/10_state.md, spec/40_execute.md R126). The one idea: an
instruction completes with one of twelve kinds of effect (`Effect`, `exec_effect`), each tied to the instructions that have
it; every whole-machine rule is then a split over the twelve. -/

namespace Sys2Proof.Machine

/-! ## The kinds of effect -/

/-- What the instruction `i` may have made of the state `s`: each kind names the instructions that have it and the
pieces of state that it rewrites. -/
inductive Effect (i : Instr) (s : State) : State → Prop
  /-- General registers alone, CXNN's count of draws included. -/
  | regs (v : Vector Byte 16) (draws : Nat) (hregs : ∀ r : Nibble, ¬ mayWriteReg r i → v[r.val] = s.v[r.val]) :
      Effect i s { s with v := v, draws := draws }
  /-- `pc` alone, after the fetch (R37). -/
  | pc (a : Word) (hname : i.row.mnemonic ∈
      ["SE_IMM", "SNE_IMM", "SE_REG", "SNE_REG", "SKP", "SKNP", "JP", "CALL", "RET", "JP_V0", "LD_K"]) :
      Effect i s (s.setPc a)
  /-- A completed 2NNN (R143). -/
  | call (stack : Vector Word 16) (sp : Fin 17) (a : Word) (hname : i.row.mnemonic = "CALL") :
      Effect i s { s with stack := stack, sp := sp, pc := a }
  /-- A completed 00EE (R141). -/
  | ret (sp : Fin 17) (a : Word) (hname : i.row.mnemonic = "RET") : Effect i s { s with sp := sp, pc := a }
  /-- 2NNN's error (R143). -/
  | overflow (hcall : ∃ nnn, i = .call nnn) (hfull : s.sp.val = 16) :
      Effect i s (s.raise (.stackOverflow s.instrAddr (encodeWord i)))
  /-- 00EE's error (R141). -/
  | underflow (hret : ∃ x, i = .ret x) (hempty : s.sp.val = 0) :
      Effect i s (s.raise (.stackUnderflow s.instrAddr (encodeWord i)))
  /-- I alone (R35). -/
  | index (a : Word) (hname : i.row.mnemonic ∈ ["LD_I", "ADD_I_VX", "LD_F_VX"]) : Effect i s (s.setI a)
  /-- DT alone (R41). -/
  | timer (b : Byte) (hname : i.row.mnemonic = "LD_DT_VX") : Effect i s (s.setDt b)
  /-- One beep (R228). -/
  | beep (b : Byte) (hbeep : ∃ x, i = .ldStVx x) : Effect i s (s.emit (.beep b))
  /-- The display (R43 to R45). -/
  | display (fb pend : Grid) (redraw : Bool) (hname : i.row.mnemonic ∈ ["CLS", "DRW"])
      (hredraw : s.redraw = true → redraw = true) : Effect i s (s.setDisplay fb pend redraw)
  /-- The display and then VF (R192, R195). -/
  | sprite (fb pend : Grid) (redraw hit : Bool) (hname : i.row.mnemonic ∈ ["CLS", "DRW"])
      (hredraw : s.redraw = true → redraw = true) (hVF : mayWriteReg 15 i) :
      Effect i s ((s.setDisplay fb pend redraw).setVF hit)
  /-- Memory alone, canonical when it was (R60). -/
  | store (m : Memory) (hname : i.row.mnemonic ∈ ["LD_B_VX", "LD_MEM_VX"])
      (hcanonical : s.Inv → Memory.wf s.cfg m = true) : Effect i s { s with mem := m }

/-- A state that differs in the general registers and the draws has that kind of effect. -/
theorem Effect.of_regs {i : Instr} {s t : State} (hregs : ∀ r, ¬ mayWriteReg r i → t.getV r = s.getV r)
    (heq : t = { s with v := t.v, draws := t.draws }) : Effect i s t := by
  rw [heq]
  exact .regs t.v t.draws hregs

theorem Effect.of_skipIf {i : Instr} {s : State} (c : Bool) (hname : i.row.mnemonic ∈
    ["SE_IMM", "SNE_IMM", "SE_REG", "SNE_REG", "SKP", "SKNP", "JP", "CALL", "RET", "JP_V0", "LD_K"]) :
    Effect i s (s.skipIf c) := by
  rw [s.skipIf_eq_setPc]
  exact .pc _ hname

theorem Effect.of_storeBytes {i : Instr} {s : State} (a : Nat) (bs : List Byte)
    (hname : i.row.mnemonic ∈ ["LD_B_VX", "LD_MEM_VX"]) : Effect i s (s.storeBytes a bs) := by
  have heq := s.storeBytes_eq a bs
  have hcfg : (s.storeBytes a bs).cfg = s.cfg := by rw [heq]
  rw [heq]
  exact .store _ hname fun w => hcfg ▸ s.storeBytes_wf a bs w

theorem Effect.of_dumpRegs {i : Instr} {s : State} (x : Nibble)
    (hname : i.row.mnemonic ∈ ["LD_B_VX", "LD_MEM_VX"]) : Effect i s (s.dumpRegs x) := by
  have heq := s.dumpRegs_eq x
  have hcfg : (s.dumpRegs x).cfg = s.cfg := by rw [heq]
  rw [heq]
  exact .store _ hname fun w => hcfg ▸ s.dumpRegs_wf x w

theorem Effect.of_loadRegs {s : State} (x : Nibble) : Effect (.ldVxMem x) s (s.loadRegs x) := by
  refine .of_regs (s.loadRegs_frame x).regs ?_
  rw [s.loadRegs_eq x]

/-! ## Every instruction completes with one of them (R126) -/

theorem exec_call_effect (nnn : Addr12) (s : State) :
    ∃ t, exec (.call nnn) s = .next t ∧ Effect (.call nnn) s t := by
  rcases Nat.lt_or_ge s.sp.val 16 with hlt | hge
  · exact ⟨_, exec_call_of_lt nnn hlt, .call _ _ _ rfl⟩
  · have hfull : s.sp.val = 16 := by omega
    exact ⟨_, exec_call_of_full nnn hfull, .overflow ⟨nnn, rfl⟩ hfull⟩

theorem exec_ret_effect (x : Nibble) (s : State) : ∃ t, exec (.ret x) s = .next t ∧ Effect (.ret x) s t := by
  rcases Nat.eq_zero_or_pos s.sp.val with hempty | hpos
  · exact ⟨_, exec_ret_of_empty x hempty, .underflow ⟨x, rfl⟩ hempty⟩
  · exact ⟨_, exec_ret_of_pos x hpos, .ret _ _ rfl⟩

theorem exec_ldK_effect (x : Nibble) (s : State) : ∃ t, exec (.ldK x) s = .next t ∧ Effect (.ldK x) s t := by
  match hpick : s.pickKey with
  | none => exact ⟨_, exec_ldK_of_none x hpick, .pc _ (by simp [Instr.row])⟩
  | some _ => exact ⟨_, exec_ldK_of_some x hpick, .of_regs (s.setV_frame x _).regs rfl⟩

theorem exec_effect (i : Instr) (s : State) : ∃ t, exec i s = .next t ∧ Effect i s t := by
  cases i with
  | cls x => exact ⟨_, exec_cls x s, .display _ _ _ (by simp [Instr.row]) fun _ => rfl⟩
  | ret x => exact exec_ret_effect x s
  | jp nnn => exact ⟨_, exec_jp nnn s, .pc _ (by simp [Instr.row])⟩
  | call nnn => exact exec_call_effect nnn s
  | seImm x nn => exact ⟨_, exec_seImm x nn s, .of_skipIf _ (by simp [Instr.row])⟩
  | sneImm x nn => exact ⟨_, exec_sneImm x nn s, .of_skipIf _ (by simp [Instr.row])⟩
  | seReg x y n => exact ⟨_, exec_seReg x y n s, .of_skipIf _ (by simp [Instr.row])⟩
  | ldImm x nn => exact ⟨_, exec_ldImm x nn s, .of_regs (s.setV_frame x _).regs rfl⟩
  | addImm x nn => exact ⟨_, exec_addImm x nn s, .of_regs (s.setV_frame x _).regs rfl⟩
  | ldReg x y => exact ⟨_, exec_ldReg x y s, .of_regs (s.setV_frame x _).regs rfl⟩
  | orReg x y => exact ⟨_, exec_orReg x y s, .of_regs (s.setV_frame x _).regs rfl⟩
  | andReg x y => exact ⟨_, exec_andReg x y s, .of_regs (s.setV_frame x _).regs rfl⟩
  | xorReg x y => exact ⟨_, exec_xorReg x y s, .of_regs (s.setV_frame x _).regs rfl⟩
  | addReg x y => exact ⟨_, exec_addReg x y s, .of_regs (s.setVThenVF_frame x _ _).regs rfl⟩
  | sub x y => exact ⟨_, exec_sub x y s, .of_regs (s.setVThenVF_frame x _ _).regs rfl⟩
  | shr x y => exact ⟨_, exec_shr x y s, .of_regs (s.setVThenVF_frame x _ _).regs rfl⟩
  | subn x y => exact ⟨_, exec_subn x y s, .of_regs (s.setVThenVF_frame x _ _).regs rfl⟩
  | shl x y => exact ⟨_, exec_shl x y s, .of_regs (s.setVThenVF_frame x _ _).regs rfl⟩
  | sneReg x y n => exact ⟨_, exec_sneReg x y n s, .of_skipIf _ (by simp [Instr.row])⟩
  | ldI nnn => exact ⟨_, exec_ldI nnn s, .index _ (by simp [Instr.row])⟩
  | jpV0 nnn => exact ⟨_, exec_jpV0 nnn s, .pc _ (by simp [Instr.row])⟩
  | rnd x nn => exact ⟨_, exec_rnd x nn s, .of_regs (rndWith_frame _ x nn s).regs rfl⟩
  | drw x y n =>
    exact ⟨_, exec_drw x y n s, .sprite _ _ _ _ (by simp [Instr.row]) (fun h => (s.drawn_redraw x y n).2 (.inl h)) rfl⟩
  | skp x => exact ⟨_, exec_skp x s, .of_skipIf _ (by simp [Instr.row])⟩
  | sknp x => exact ⟨_, exec_sknp x s, .of_skipIf _ (by simp [Instr.row])⟩
  | ldVxDt x => exact ⟨_, exec_ldVxDt x s, .of_regs (s.setV_frame x _).regs rfl⟩
  | ldK x => exact exec_ldK_effect x s
  | ldDtVx x => exact ⟨_, exec_ldDtVx x s, .timer _ rfl⟩
  | ldStVx x => exact ⟨_, exec_ldStVx x s, .beep _ ⟨x, rfl⟩⟩
  | addIVx x => exact ⟨_, exec_addIVx x s, .index _ (by simp [Instr.row])⟩
  | ldFVx x => exact ⟨_, exec_ldFVx x s, .index _ (by simp [Instr.row])⟩
  | ldBVx x => exact ⟨_, exec_ldBVx x s, .of_storeBytes _ _ (by simp [Instr.row])⟩
  | ldMemVx x => exact ⟨_, exec_ldMemVx x s, .of_dumpRegs x (by simp [Instr.row])⟩
  | ldVxMem x => exact ⟨_, exec_ldVxMem x s, .of_loadRegs x⟩

theorem effect_of_exec {i : Instr} {s t : State} (h : exec i s = .next t) : Effect i s t := by
  obtain ⟨u, hu, heffect⟩ := exec_effect i s
  cases hu.symm.trans h
  exact heffect

/-! ## What an effect keeps -/

section
variable {i : Instr} {s t : State}

/-- Only the two error kinds touch the fault record (R126). -/
theorem Effect.faults (h : Effect i s t) : t.faults = s.faults ∨
    ((∃ nnn, i = .call nnn) ∧ s.sp.val = 16 ∧ t = s.raise (.stackOverflow s.instrAddr (encodeWord i))) ∨
    ((∃ x, i = .ret x) ∧ s.sp.val = 0 ∧ t = s.raise (.stackUnderflow s.instrAddr (encodeWord i))) := by
  cases h with
  | overflow hcall hfull => exact .inr (.inl ⟨hcall, hfull, rfl⟩)
  | underflow hret hempty => exact .inr (.inr ⟨hret, hempty, rfl⟩)
  | _ => exact .inl rfl

/-- A register the instruction does not name is kept (R33, R34). -/
theorem Effect.getV (h : Effect i s t) (r : Nibble) (hr : ¬ mayWriteReg r i) : t.getV r = s.getV r := by
  cases h with
  | regs v draws hregs => exact hregs r hr
  | sprite fb pend redraw hit _ _ hVF =>
    have hne : r ≠ 15 := fun h15 => hr (h15 ▸ hVF)
    exact (s.setDisplay fb pend redraw).setVF_getV_other hit hne
  | _ => rfl

/-- The canonical form of memory is kept: only a store rewrites it. -/
theorem Effect.inv (h : Effect i s t) (hs : s.Inv) : t.Inv := by
  cases h with
  | store m _ hcanonical => exact hcanonical hs
  | _ => exact hs

/-- Only FX18 emits an event (R228). -/
theorem Effect.out (h : Effect i s t) (hi : ∀ x, i ≠ .ldStVx x) : t.out = s.out := by
  cases h with
  | beep _ hbeep =>
    obtain ⟨x, hx⟩ := hbeep
    exact absurd hx (hi x)
  | _ => rfl

end

/-- Settles O47: every instruction has an effect, and of the effects two record an error. -/
theorem onlyCallAndReturnRaise : Obligations.OnlyCallAndReturnRaise := by
  intro i s
  obtain ⟨t, hexec, heffect⟩ := exec_effect i s
  exact ⟨t, hexec, heffect.faults⟩

/-- Settles O48: by the effects, of which only the register writes and the sprite reach a register. -/
theorem onlyNamedRegistersAreWritten : Obligations.OnlyNamedRegistersAreWritten :=
  fun _ _ _ r hexec hr => (effect_of_exec hexec).getV r hr

/-- Settles O49: by the effects, each of which rewrites its own piece of state and carries the names of the instructions
that have it. -/
theorem onlyNamedInstructionsWriteState : Obligations.OnlyNamedInstructionsWriteState := by
  intro i s t hexec
  cases effect_of_exec hexec with
  | pc _ hname =>
    exact ⟨.inr rfl, .inl hname, .inr rfl, .inr rfl, .inr rfl, .inr ⟨rfl, rfl, rfl⟩, id, .inr rfl, rfl, rfl, rfl⟩
  | call _ _ _ hname =>
    refine ⟨.inr rfl, .inl ?_, .inl hname, .inl ?_, .inr rfl, .inr ⟨rfl, rfl, rfl⟩, id, .inr rfl, rfl, rfl, rfl⟩
    · rw [hname]; decide
    · rw [hname]; decide
  | ret _ _ hname =>
    refine ⟨.inr rfl, .inl ?_, .inr rfl, .inl ?_, .inr rfl, .inr ⟨rfl, rfl, rfl⟩, id, .inr rfl, rfl, rfl, rfl⟩
    · rw [hname]; decide
    · rw [hname]; decide
  | index _ hname =>
    exact ⟨.inl hname, .inr rfl, .inr rfl, .inr rfl, .inr rfl, .inr ⟨rfl, rfl, rfl⟩, id, .inr rfl, rfl, rfl, rfl⟩
  | timer _ hname =>
    exact ⟨.inr rfl, .inr rfl, .inr rfl, .inr rfl, .inl hname, .inr ⟨rfl, rfl, rfl⟩, id, .inr rfl, rfl, rfl, rfl⟩
  | display _ _ _ hname hredraw =>
    exact ⟨.inr rfl, .inr rfl, .inr rfl, .inr rfl, .inr rfl, .inl hname, hredraw, .inr rfl, rfl, rfl, rfl⟩
  | sprite _ _ _ _ hname hredraw =>
    exact ⟨.inr rfl, .inr rfl, .inr rfl, .inr rfl, .inr rfl, .inl hname, hredraw, .inr rfl, rfl, rfl, rfl⟩
  | store _ hname =>
    exact ⟨.inr rfl, .inr rfl, .inr rfl, .inr rfl, .inr rfl, .inr ⟨rfl, rfl, rfl⟩, id, .inl hname, rfl, rfl, rfl⟩
  | _ => exact ⟨.inr rfl, .inr rfl, .inr rfl, .inr rfl, .inr rfl, .inr ⟨rfl, rfl, rfl⟩, id, .inr rfl, rfl, rfl, rfl⟩

/-! ## What a STEP can do (R121, R125, R283) -/

theorem step_of_not_booted {s : State} (h : s.booted = false) : step s = .refused .notBooted :=
  if_neg (Bool.eq_false_iff.1 h)

/-- After boot a STEP answers a next state: an effect of the decoded instruction on the state after the advance, or the
error of an invalid word. -/
theorem step_of_booted {s : State} (h : s.booted = true) : ∃ t, step s = .next t ∧
    ((∃ i, decodeWord s.fetchWord = .ok i ∧ Effect i s.advance t) ∨
      ((∃ e, decodeWord s.fetchWord = .error e) ∧
        t = s.advance.raise (.invalidInstruction s.pc s.fetchWord))) := by
  match hdecode : decodeWord s.fetchWord with
  | .ok i =>
    obtain ⟨t, hexec, heffect⟩ := exec_effect i s.advance
    exact ⟨t, (step_eq_exec_of_decodeWord h hdecode).trans hexec, .inl ⟨i, rfl, heffect⟩⟩
  | .error e => exact ⟨_, step_of_decodeWord_error h hdecode, .inr ⟨⟨e, rfl⟩, rfl⟩⟩

/-- The cases of a STEP that answers a next state. -/
theorem step_cases {s t : State} (h : step s = .next t) :
    (∃ i, decodeWord s.fetchWord = .ok i ∧ Effect i s.advance t) ∨
      ((∃ e, decodeWord s.fetchWord = .error e) ∧
        t = s.advance.raise (.invalidInstruction s.pc s.fetchWord)) := by
  cases hbooted : s.booted with
  | false => cases (step_of_not_booted hbooted).symm.trans h
  | true =>
    obtain ⟨u, hu, hcases⟩ := step_of_booted hbooted
    cases hu.symm.trans h
    exact hcases

/-- Settles O58: the advance and the error keep memory, and an effect keeps its canonical form. -/
theorem stepKeepsInvariant : Obligations.StepKeepsInvariant := by
  intro s t hs hstep
  have hadvance : s.advance.Inv := hs
  rcases step_cases hstep with ⟨i, -, heffect⟩ | ⟨-, rfl⟩
  · exact heffect.inv hadvance
  · exact hadvance

end Sys2Proof.Machine
end

section
/-! PROOFS. The host commands (spec/60_exceptions.md R256 to R265, spec/70_reset_and_hazards.md section 1). The one idea:
a command's response is determined by what it appended to the fault record and to the emitted events (`respond_eq_ok`,
`respond_eq_error`), and each command writes one known state; what holds of every command sequence follows by induction
on the sequence. -/

namespace Sys2Proof.Machine

/-! ## Responses (R6, R256) -/

section
variable {s t : State}

/-- The events of a response are those the command appended. -/
theorem respond_events {es : List Event} (h : t.out = s.out ++ es) : (respond s t).events = es := by
  rw [respond, h, List.drop_left]

theorem respond_eq_ok (hfaults : t.faults = s.faults) (hout : t.out = s.out) :
    respond s t = { outcome := .ok, state := t, events := [] } := by
  have hevents : (respond s t).events = [] := respond_events (hout.trans (List.append_nil _).symm)
  rw [← respond_outcome_of_faults_eq hfaults, ← hevents]
  rfl

theorem respond_eq_error {e : Fault} (hfaults : t.faults = s.faults ++ [e]) (hout : t.out = s.out) :
    respond s t = { outcome := .error e, state := t, events := [] } := by
  have hevents : (respond s t).events = [] := respond_events (hout.trans (List.append_nil _).symm)
  rw [← respond_outcome_of_faults_append hfaults, ← hevents]
  rfl

/-! ## STEP as a command (R283) -/

theorem command_step_of_not_booted (h : s.booted = false) : command .step s = refuse s := by
  rw [command, step_of_not_booted h]

theorem command_step_of_next (h : step s = .next t) : command .step s = respond s t := by
  rw [command, h]

/-- A STEP is refused before boot and answers its next state after it. -/
theorem command_step_cases (s : State) : (s.booted = false ∧ command .step s = refuse s) ∨
    ∃ t, step s = .next t ∧ command .step s = respond s t := by
  cases hbooted : s.booted with
  | false => exact .inl ⟨rfl, command_step_of_not_booted hbooted⟩
  | true =>
    obtain ⟨t, hstep, -⟩ := step_of_booted hbooted
    exact .inr ⟨t, hstep, command_step_of_next hstep⟩

end

/-! ## What LOAD and the key commands write (R210, R281, R282) -/

namespace State

variable (s : State) {bs : List Byte}

theorem load_of_too_large (h : 3584 < bs.length) : s.load bs = s.raise (.programTooLarge bs.length) := if_pos h

/-- A LOAD that fits is a RESET but for memory. -/
theorem load_eq_of_fits (h : bs.length ≤ maxProg) : s.load bs = { s.resetCommand with mem := (s.load bs).mem } := by
  rw [s.load_of_fits h]
  exact s.resetCommand.storeBytes_eq _ _

/-- LOAD is a RESET but for memory, or one error. -/
theorem load_cases (bs : List Byte) :
    (bs.length ≤ maxProg ∧ s.load bs = s.resetCommand.storeBytes progBase bs) ∨
      ∃ e, s.load bs = s.raise e := by
  rcases Nat.lt_or_ge maxProg bs.length with hlarge | hfits
  · exact .inr ⟨_, s.load_of_too_large hlarge⟩
  · exact .inl ⟨hfits, s.load_of_fits hfits⟩

/-- A key command writes the key set alone, or records one error. -/
theorem setKey_cases (k : Byte) (down : Bool) :
    (∃ keys, s.setKey k down = { s with keys := keys }) ∨ ∃ e, s.setKey k down = s.raise e := by
  rcases Nat.lt_or_ge k.toNat 16 with hcode | hcode
  · exact .inl ⟨_, s.setKey_of_code down hcode⟩
  · exact .inr ⟨_, s.setKey_of_no_code down hcode⟩

@[simp] theorem setKey_booted (k : Byte) (down : Bool) : (s.setKey k down).booted = s.booted := by
  rcases s.setKey_cases k down with ⟨_, h⟩ | ⟨_, h⟩
  · rw [h]
  · rw [h, raise_booted]

@[simp] theorem setKey_out (k : Byte) (down : Bool) : (s.setKey k down).out = s.out := by
  rcases s.setKey_cases k down with ⟨_, h⟩ | ⟨_, h⟩
  · rw [h]
  · rw [h, raise_out]

@[simp] theorem load_out (bs : List Byte) : (s.load bs).out = s.out := by
  rcases s.load_cases bs with ⟨hfits, -⟩ | ⟨_, h⟩
  · rw [s.load_eq_of_fits hfits]
    rfl
  · rw [h]
    rfl

/-- What LOAD does not write reads as after RESET. -/
theorem load_memRead_outside {a : Nat} (hfits : bs.length ≤ maxProg) (ha : a < 4096)
    (hout : a < 0x200 ∨ 0x200 + bs.length ≤ a) : (s.load bs).memRead a = s.resetCommand.memRead a := by
  rw [s.load_of_fits hfits]
  refine s.resetCommand.storeBytes_memRead_outside _ _ _ fun k hk => ?_
  simp only [maxProg] at hfits
  simp only [reduceAddr, memSize, progBase]
  omega

/-- A LOAD leaves what RESET keeps. -/
theorem load_resetCommand (hfits : bs.length ≤ maxProg) : (s.load bs).resetCommand = s.resetCommand := by
  rw [s.load_eq_of_fits hfits]
  rfl

end State

section
variable (s : State) {bs : List Byte}

theorem command_load_of_fits (h : bs.length ≤ 3584) :
    command (.load bs) s = { outcome := .ok, state := s.load bs, events := [] } := by
  refine respond_eq_ok ?_ (s.load_out bs)
  rw [s.load_eq_of_fits h]
  rfl

theorem command_load_of_too_large (h : 3584 < bs.length) : command (.load bs) s =
    { outcome := .error (.programTooLarge bs.length), state := s.raise (.programTooLarge bs.length), events := [] } := by
  refine Eq.trans (congrArg (respond s) (s.load_of_too_large h)) ?_
  exact respond_eq_error rfl rfl

theorem command_reset : command .reset s = { outcome := .ok, state := s.resetCommand, events := [] } :=
  respond_eq_ok rfl rfl

end

/-! ## RESET and LOAD (R280 to R283) -/

/-- Settles O54: every field of the state RESET writes is written out in `State.resetCommand`, and memory reads as its
RESET values. -/
theorem resetInstallsItsValues : Obligations.ResetInstallsItsValues := by
  intro s
  refine ⟨_, command_reset s, fun a ha => ?_, fun a hfont ha => ?_, fun r => Vector.getElem_replicate _, rfl, rfl,
    fun k hk => Vector.getElem_replicate _, rfl, rfl, fun c r => ⟨Grid.px_blank c r, Grid.px_blank c r⟩,
    rfl, rfl, rfl, rfl, rfl, rfl⟩
  · have hreduced : reduceAddr a = a := Nat.mod_eq_of_lt (ha.trans (by decide))
    rw [s.resetCommand_memRead, hreduced]
    exact dif_pos ha
  · have hreduced : reduceAddr a = a := Nat.mod_eq_of_lt ha
    rw [s.resetCommand_memRead, hreduced, resetByte_of_font_le hfont]

/-- Settles O55: the copy on the state after RESET; a second LOAD starts from the same state after RESET. -/
theorem loadResetsThenCopies : Obligations.LoadResetsThenCopies := by
  intro bs s hfits
  refine ⟨_, command_load_of_fits s hfits, fun k hk => s.load_memRead hfits k hk,
    fun a ha hout => s.load_memRead_outside hfits ha hout, ?_, ?_⟩
  · rw [s.load_eq_of_fits hfits]
    rfl
  · rw [command_load_of_fits _ hfits]
    change (s.load bs).load bs = s.load bs
    rw [State.load_of_fits _ hfits, s.load_resetCommand hfits, ← s.load_of_fits hfits]

/-- Settles O56: one byte too many is the one error, and the greatest length that fits loads. -/
theorem tooLargeLoadChangesNothing : Obligations.TooLargeLoadChangesNothing := by
  refine fun bs s => ⟨fun hlarge => command_load_of_too_large s hlarge, fun hlen => ?_⟩
  rw [command_load_of_fits s hlen.le]

/-- Settles O10: the refusals before boot, and `booted` after each other command. -/
theorem refusedUntilBooted : Obligations.RefusedUntilBooted := by
  refine fun s => ⟨fun hunbooted => ⟨step_of_not_booted hunbooted, command_step_of_not_booted hunbooted,
    command_tick_of_not_booted hunbooted, fun bs hlarge => ?_⟩, rfl, ?_, fun bs hfits => ?_, fun k => ?_⟩
  · rw [command_load_of_too_large s hlarge]
    exact hunbooted
  · rw [command_reset]
  · rw [command_load_of_fits s hfits]
    exact ⟨s.load_booted hfits, rfl⟩
  · exact ⟨s.setKey_booted k true, s.setKey_booted k false⟩

/-! ## Events (R261 to R263) -/

/-- The events a STEP appends: the beep of a fetched FX18 and no other. -/
theorem step_out {s t : State} (h : step s = .next t) : ∃ es, t.out = s.out ++ es ∧
    (∀ x, decodeWord s.fetchWord = .ok (.ldStVx x) → es = [.beep (s.getV x)]) ∧
    ((∀ x, decodeWord s.fetchWord ≠ .ok (.ldStVx x)) → es = []) := by
  by_cases hbeep : ∃ x, decodeWord s.fetchWord = .ok (.ldStVx x)
  · obtain ⟨x, hx⟩ := hbeep
    have hbooted : s.booted = true := by
      by_contra hunbooted
      cases (step_of_not_booted (Bool.eq_false_iff.2 hunbooted)).symm.trans h
    cases (step_eq_exec_of_decodeWord hbooted hx).symm.trans h
    refine ⟨[.beep (s.getV x)], rfl, fun y hy => ?_, fun hno => absurd hx (hno x)⟩
    cases hx.symm.trans hy
    rfl
  · have hno (x : Nibble) : decodeWord s.fetchWord ≠ .ok (.ldStVx x) := fun hx => hbeep ⟨x, hx⟩
    refine ⟨[], ?_, fun x hx => absurd hx (hno x), fun _ => rfl⟩
    rw [List.append_nil]
    rcases step_cases h with ⟨i, hi, heffect⟩ | ⟨-, rfl⟩
    · refine heffect.out fun x hx => hno x ?_
      rw [hi, hx]
    · rfl

/-- A command that appends no event leaves the list of events as it was. -/
theorem respond_out_of_out_eq {s t : State} (h : t.out = s.out) :
    (respond s t).state.out = s.out ++ (respond s t).events ∧ (respond s t).events = [] := by
  have hnil : t.out = s.out ++ [] := h.trans (List.append_nil _).symm
  have hevents := respond_events hnil
  exact ⟨hevents.symm ▸ hnil, hevents⟩

/-- The commands other than TICK and STEP append no event. -/
theorem command_out_of_quiet {c : Command} (htick : c ≠ .tick) (hstep : c ≠ .step) (s : State) :
    (command c s).state.out = s.out ++ (command c s).events ∧ (command c s).events = [] := by
  cases c with
  | reset => exact respond_out_of_out_eq rfl
  | load bs => exact respond_out_of_out_eq (s.load_out bs)
  | step => exact absurd rfl hstep
  | tick => exact absurd rfl htick
  | keyDown k => exact respond_out_of_out_eq (s.setKey_out k true)
  | keyUp k => exact respond_out_of_out_eq (s.setKey_out k false)

theorem command_tick_out {s : State} (h : s.booted = true) :
    (command .tick s).state.out = s.out ++ (command .tick s).events ∧
      (command .tick s).events = if s.redraw then [.present s.fb] else [] := by
  have hout : s.tick.out = s.out ++ if s.redraw then [.present s.fb] else [] := by rw [s.tick_eq]
  have hevents := respond_events hout
  rw [command_tick_of_booted h]
  exact ⟨hevents.symm ▸ hout, hevents⟩

/-- Settles O50: by the command; TICK and STEP are the two that append events, each its own. -/
theorem eventsComeFromTickAndBeep : Obligations.EventsComeFromTickAndBeep := by
  intro c s
  by_cases htick : c = .tick
  · subst htick
    cases hbooted : s.booted with
    | false =>
      rw [command_tick_of_not_booted hbooted]
      exact ⟨(List.append_nil _).symm, nofun, nofun, nofun, fun h => absurd rfl h⟩
    | true =>
      obtain ⟨hout, hevents⟩ := command_tick_out hbooted
      exact ⟨hout, fun _ _ => hevents, nofun, nofun, fun h => absurd rfl h⟩
  by_cases hstep : c = .step
  · subst hstep
    rcases command_step_cases s with ⟨hunbooted, hcommand⟩ | ⟨t, hnext, hcommand⟩
    · rw [hcommand]
      refine ⟨(List.append_nil _).symm, nofun, fun _ hbooted => ?_, fun _ _ => rfl, fun _ h => absurd rfl h⟩
      cases hunbooted.symm.trans hbooted
    · obtain ⟨es, hout, hbeep, hquiet⟩ := step_out hnext
      rw [hcommand, respond_events hout]
      exact ⟨hout, nofun, fun _ _ => hbeep, fun _ => hquiet, fun _ h => absurd rfl h⟩
  · obtain ⟨hout, hevents⟩ := command_out_of_quiet htick hstep s
    exact ⟨hout, fun h => absurd h htick, fun h => absurd h hstep, fun h => absurd h hstep, fun _ _ => hevents⟩

/-! ## The fault record (R256, R257) -/

/-- What a command does to the fault record, and what it answers: nothing and no error, or one error and that error. -/
def RecordsItsOutcome (s : State) (r : Response) : Prop :=
  (r.state.faults = s.faults ∧ (r.outcome = .ok ∨ r.outcome = .refused)) ∨
    ∃ e, r.state.faults = s.faults ++ [e] ∧ r.outcome = .error e

section
variable {s t : State}

theorem recordsItsOutcome_refuse : RecordsItsOutcome s (refuse s) := .inl ⟨rfl, .inr rfl⟩

theorem recordsItsOutcome_of_faults_eq (h : t.faults = s.faults) : RecordsItsOutcome s (respond s t) :=
  .inl ⟨h, .inl (respond_outcome_of_faults_eq h)⟩

theorem recordsItsOutcome_of_faults_append {e : Fault} (h : t.faults = s.faults ++ [e]) :
    RecordsItsOutcome s (respond s t) :=
  .inr ⟨e, h, respond_outcome_of_faults_append h⟩

/-- A STEP records no error or one: of an invalid word, or of a CALL or RET. -/
theorem step_recordsItsOutcome (h : step s = .next t) : RecordsItsOutcome s (respond s t) := by
  rcases step_cases h with ⟨i, -, heffect⟩ | ⟨-, rfl⟩
  · rcases heffect.faults with hkept | ⟨-, -, rfl⟩ | ⟨-, -, rfl⟩
    · exact recordsItsOutcome_of_faults_eq hkept
    · exact recordsItsOutcome_of_faults_append rfl
    · exact recordsItsOutcome_of_faults_append rfl
  · exact recordsItsOutcome_of_faults_append rfl

theorem load_recordsItsOutcome (bs : List Byte) : RecordsItsOutcome s (respond s (s.load bs)) := by
  rcases s.load_cases bs with ⟨hfits, -⟩ | ⟨e, h⟩
  · rw [s.load_eq_of_fits hfits]
    exact recordsItsOutcome_of_faults_eq rfl
  · rw [h]
    exact recordsItsOutcome_of_faults_append rfl

theorem setKey_recordsItsOutcome (k : Byte) (down : Bool) : RecordsItsOutcome s (respond s (s.setKey k down)) := by
  rcases s.setKey_cases k down with ⟨keys, h⟩ | ⟨e, h⟩
  · rw [h]
    exact recordsItsOutcome_of_faults_eq rfl
  · rw [h]
    exact recordsItsOutcome_of_faults_append rfl

end

theorem command_recordsItsOutcome (c : Command) (s : State) : RecordsItsOutcome s (command c s) := by
  cases c with
  | reset => exact recordsItsOutcome_of_faults_eq rfl
  | load bs => exact load_recordsItsOutcome bs
  | step =>
    rcases command_step_cases s with ⟨-, hcommand⟩ | ⟨t, hstep, hcommand⟩
    · rw [hcommand]
      exact recordsItsOutcome_refuse
    · rw [hcommand]
      exact step_recordsItsOutcome hstep
  | tick =>
    cases hbooted : s.booted with
    | false =>
      rw [command_tick_of_not_booted hbooted]
      exact recordsItsOutcome_refuse
    | true =>
      rw [command_tick_of_booted hbooted]
      exact recordsItsOutcome_of_faults_eq s.tick_faults
  | keyDown k => exact setKey_recordsItsOutcome k true
  | keyUp k => exact setKey_recordsItsOutcome k false

theorem State.faulted_iff (s : State) : s.faulted = true ↔ s.faults ≠ [] := by
  rw [faulted, Bool.not_eq_true', List.isEmpty_eq_false_iff]

/-- No command clears the fault record. -/
theorem command_faulted (c : Command) {s : State} (h : s.faulted = true) : (command c s).state.faulted = true := by
  rw [State.faulted_iff] at h ⊢
  rcases command_recordsItsOutcome c s with ⟨hkept, -⟩ | ⟨e, hgrown, -⟩
  · rwa [hkept]
  · rw [hgrown]
    exact List.append_ne_nil_of_right_ne_nil _ (List.cons_ne_nil _ _)

/-! ## Command sequences (R265) -/

theorem runCommands_cons (c : Command) (cs : List Command) (s : State) :
    runCommands (c :: cs) s = runCommands cs (command c s).state := rfl

/-- What every command keeps, every command sequence keeps. -/
theorem runCommands_keeps {P : State → Prop} (hkeep : ∀ c s, P s → P (command c s).state) (cs : List Command)
    {s : State} (h : P s) : P (runCommands cs s) := by
  induction cs generalizing s with
  | nil => exact h
  | cons c cs ih => exact ih (hkeep c s h)

/-- Settles O51: each command records its outcome, and what no command clears no sequence clears. -/
theorem faultRecordGrowsByTheOutcome : Obligations.FaultRecordGrowsByTheOutcome :=
  ⟨command_recordsItsOutcome, fun cs _ h =>
    runCommands_keeps (P := fun s => s.faulted = true) (fun c _ => command_faulted c) cs h⟩

/-- Settles O53: by induction on the number of TICKs, each of which takes 1 off DT, stopping at 0. -/
theorem timerReachesZeroAfterItsTicks : Obligations.TimerReachesZeroAfterItsTicks := by
  have hdt (k : Nat) (s : State) (hbooted : s.booted = true) :
      (runCommands (List.replicate k .tick) s).dt.toNat = s.dt.toNat - k := by
    induction k generalizing s with
    | zero => rfl
    | succ k ih =>
      rw [List.replicate_succ, runCommands_cons, command_tick_of_booted hbooted]
      change (runCommands _ s.tick).dt.toNat = _
      rw [ih s.tick (s.tick_frame.booted.trans hbooted), s.tick_dt_toNat]
      split <;> omega
  refine fun k s hbooted => ⟨hdt k s hbooted, ?_⟩
  rw [← BitVec.toNat_inj, hdt k s hbooted]
  exact Nat.sub_eq_zero_iff_le

/-! ## The canonical form of memory, along commands (R60, R65) -/

namespace State

variable (s : State)

theorem resetCommand_inv : s.resetCommand.Inv := rfl

theorem load_inv (bs : List Byte) (h : s.Inv) : (s.load bs).Inv := by
  rcases s.load_cases bs with ⟨-, hload⟩ | ⟨e, hload⟩
  · rw [hload]
    exact s.resetCommand.storeBytes_wf _ _ s.resetCommand_inv
  · rw [hload]
    exact h

theorem tick_inv (h : s.Inv) : s.tick.Inv := by
  rw [s.tick_eq]
  exact h

theorem setKey_inv (k : Byte) (down : Bool) (h : s.Inv) : (s.setKey k down).Inv := by
  rcases s.setKey_cases k down with ⟨_, hkey⟩ | ⟨_, hkey⟩
  · rw [hkey]
    exact h
  · rw [hkey]
    exact h

end State

/-- Settles O59: after reset no byte is listed. -/
theorem resetMeetsInvariant : Obligations.ResetMeetsInvariant :=
  ⟨State.reset_wf, State.resetCommand_inv⟩

/-- Every command keeps the canonical form: STEP by `stepKeepsInvariant`, RESET and LOAD from the empty list on, and
the others do not write memory. -/
theorem command_inv (c : Command) (s : State) (h : s.Inv) : (command c s).state.Inv := by
  cases c with
  | reset => exact s.resetCommand_inv
  | load bs => exact s.load_inv bs h
  | step =>
    rcases command_step_cases s with ⟨-, hcommand⟩ | ⟨t, hstep, hcommand⟩
    · rw [hcommand]
      exact h
    · rw [hcommand]
      exact stepKeepsInvariant s t h hstep
  | tick =>
    cases hbooted : s.booted with
    | false =>
      rw [command_tick_of_not_booted hbooted]
      exact h
    | true =>
      rw [command_tick_of_booted hbooted]
      exact s.tick_inv h
  | keyDown k => exact s.setKey_inv k true h
  | keyUp k => exact s.setKey_inv k false h

/-- Settles O60: every command keeps the canonical form, and RESET establishes it. -/
theorem commandsKeepInvariant : Obligations.CommandsKeepInvariant := by
  refine ⟨fun s t hs ⟨cs, hrun⟩ => ?_, fun any cs => ?_⟩
  · exact hrun ▸ runCommands_keeps command_inv cs hs
  · exact runCommands_keeps command_inv cs any.powerOn.resetCommand_inv

end Sys2Proof.Machine
end
